-- ==== Sys2Proof/Word.lean ====
section
/-! DEFINITION. The plain data every other file speaks of: bytes, the 9-bit word of a port, polarity,
symbols and ports (00_scope.md R7, R8; 30_encoding.md R80). Types only: the functions over them stand in
`Decode.lean` and under `Machine/`. -/

namespace Sys2Proof

/-- A byte: a pixel or an encoded byte, 0..255 (R7; parameter `SYM_W` = 8 of R6). -/
abbrev Byte := BitVec 8

/-- The word a port carries, `{eof, data[7:0]}`, the same on all four ports (R80; `PORT_W` = 9 of R6). -/
abbrev PortWord := BitVec 9

/-- A polarity flag: the bit 0 is dark, the bit 1 is light (R21, R25). -/
inductive Polarity where
  | dark
  | light
  deriving DecidableEq, Repr

/-- A symbol: `DATA(b)` or the end-of-frame marker `EOF` (R8, R80). -/
inductive PortSymbol where
  | data (b : Byte)
  | eof
  deriving DecidableEq, Repr

/-- The four ports, one for each stream (R34, R50). -/
inductive Port where
  | encIn
  | encOut
  | decIn
  | decOut
  deriving DecidableEq, Repr

end Sys2Proof
end

