-- ==== Sys2Proof/Config.lean ====
section
/-! DEFINITION. The parameters of 00_scope.md R6, each at the value this hardware takes, and the one open
parameter `CLK_HZ`, which no rule uses (R245, decision D17). -/

namespace Sys2Proof.Config

/-- `SYM_W`: width of a pixel and of an encoded byte (R6). -/
abbrev symW : Nat := 8

/-- `CNT_W`: width of `ENC.cnt` (R6, decision D4). -/
abbrev cntW : Nat := 8

/-- `REM_W`: width of `DEC.rem` (R6, decision D10). -/
abbrev remW : Nat := 8

/-- `PORT_W`: width of a port symbol (R6, decision D2). -/
abbrev portW : Nat := 9

/-- `PEND_MAX`: the most symbols `ENC.pend` ever holds (R6, R123). -/
@[simp] abbrev pendMax : Nat := 2

/-- `DARK`: the pixel value of dark polarity (R6). -/
@[simp] abbrev darkPixel : Byte := 0

/-- `LIGHT`: the pixel value of light polarity (R6). -/
@[simp] abbrev lightPixel : Byte := 255

/-- `MAXB`: the largest run length one byte carries, and what one continuation pair adds (R6). It equals
`lightPixel` in number only; no rule relies on that. -/
@[simp] abbrev maxB : Nat := 255

/-- `CLK_HZ`: the clock frequency, left open and used by no rule (R6, R245). It has no body: nothing can be
proved of its value. -/
opaque clkHz : Nat

end Sys2Proof.Config
end

