-- ==== Sys2Proof/Syntax.lean ====
section
/-! DEFINITION. The ten operations of spec/opcode_table.json, one constructor per row, and the selectors that
choose them (00_scope.md R9, 30_encoding.md R88). -/

namespace Sys2Proof

/-- The operations (R9). An operand is what the selecting symbol carries beside the row's fixed bits. -/
inductive Instr where
  /-- `ENC.PIXD`: consume a dark pixel (R113). -/
  | encPixd
  /-- `ENC.PIXL`: consume a light pixel (R114). -/
  | encPixl
  /-- `ENC.PIXBAD`: consume an invalid pixel `b`, 1..254 (R115). -/
  | encPixbad (b : Byte)
  /-- `ENC.EOF`: end the frame; `d` is the symbol's data byte, ignored (R116, R80). -/
  | encEof (d : Byte)
  /-- `ENC.RESET`: the signal `enc_rst` (R117). -/
  | encReset
  /-- `FRM.ENC`: the function `frame` applied to a run length (R141). -/
  | frmEnc (len : Nat)
  /-- `FRM.DEC`: the function `unframe` applied to a byte list (R143). -/
  | frmDec (bs : List Byte)
  /-- `DEC.RUN n`: expand one encoded byte (R161). -/
  | decRun (n : Byte)
  /-- `DEC.EOF`: end the frame; `d` is the symbol's data byte, ignored (R162, R80). -/
  | decEof (d : Byte)
  /-- `DEC.RESET`: the signal `dec_rst` (R163). -/
  | decReset
  deriving DecidableEq, Repr

/-- What selects an operation: a symbol on an input port, a reset signal at 1, or the application of one of
the framer's two functions (the spaces `enc_in`, `dec_in`, `signal` and `function` of R88's table). -/
inductive Selector where
  | encIn (w : PortWord)
  | decIn (w : PortWord)
  | encRst
  | decRst
  | frame (len : Nat)
  | unframe (bs : List Byte)
  deriving DecidableEq, Repr

end Sys2Proof
end

