-- ==== Sys2Proof/WellFormed.lean ====
section
/-! DEFINITION. Which operations are well formed: the operand ranges that 30_encoding.md R81 and R88 fix. -/

namespace Sys2Proof

/-- The only operand with a restricted range is the pixel of `ENC.PIXBAD`: 1..254, since 0 selects
`ENC.PIXD` and 255 selects `ENC.PIXL` (R81, R115). Every other operand is free: all 256 data patterns of an
`EOF` symbol (R80), all 256 encoded bytes (R87), every length and every byte list. -/
def Instr.wellFormed : Instr → Bool
  | .encPixd => true
  | .encPixl => true
  | .encPixbad b => b != 0 && b != 255
  | .encEof _ => true
  | .encReset => true
  | .frmEnc _ => true
  | .frmDec _ => true
  | .decRun _ => true
  | .decEof _ => true
  | .decReset => true

end Sys2Proof
end

