-- ==== Sys2Proof/Decode.lean ====
section
/-! DEFINITION. From selectors to operations and back (30_encoding.md R80 to R88), the opcode table as data,
and the host's view of a table word. -/

namespace Sys2Proof

/-! ### The fields of a port word -/

/-- Bit 8, `eof` (R80). -/
def symEof (w : PortWord) : Bool := w.getLsbD 8

/-- Bits 7..0, `data` (R80). -/
def symData (w : PortWord) : Byte := w.setWidth 8

/-- The word of `DATA(b)`: `eof` = 0 (R80). -/
def dataWord (b : Byte) : PortWord := b.setWidth 9

/-- An input word with `eof` = 1 and the data bits `d` (R80). -/
def eofWord (d : Byte) : PortWord := 0x100 ||| d.setWidth 9

/-! ### The decoder -/

/-- The operation a symbol on `enc_in` selects: the rows of that space tried in ascending order, the first
with `(sym AND mask) = match` taken (R88). -/
def decodeEncIn (w : PortWord) : Instr :=
  if w &&& 0x1FF = 0x000 then .encPixd
  else if w &&& 0x1FF = 0x0FF then .encPixl
  else if w &&& 0x100 = 0x000 then .encPixbad (symData w)
  else .encEof (symData w)

/-- The operation a symbol on `dec_in` selects (R88). -/
def decodeDecIn (w : PortWord) : Instr :=
  if w &&& 0x100 = 0x000 then .decRun (symData w)
  else .decEof (symData w)

/-- The operation a selector selects. Every selector selects exactly one: a decoder of symbols is total
(R88), and there is no reserved encoding (R87). -/
def decode : Selector → Instr
  | .encIn w => decodeEncIn w
  | .decIn w => decodeDecIn w
  | .encRst => .encReset
  | .decRst => .decReset
  | .frame len => .frmEnc len
  | .unframe bs => .frmDec bs

/-- Why a number offered as a symbol is rejected. -/
inductive DecodeError where
  /-- The number does not fit the 9 bits of a port symbol (R80). -/
  | notNineBits
  /-- The port is an output port: no symbol on it selects an operation (R88). -/
  | notAnInputPort
  deriving DecidableEq, Repr

/-- The decoder on any number at any port: an operation, or a rejection by name. -/
def decodeAt (p : Port) (w : Nat) : Except DecodeError Instr :=
  if w < 512 then
    match p with
    | .encIn => .ok (decodeEncIn (BitVec.ofNat 9 w))
    | .decIn => .ok (decodeDecIn (BitVec.ofNat 9 w))
    | .encOut => .error .notAnInputPort
    | .decOut => .error .notAnInputPort
  else .error .notNineBits

/-! ### The encoder -/

/-- What selects an operation (R88): the inverse of `decode` on well-formed operations. -/
def encode : Instr → Selector
  | .encPixd => .encIn 0x000
  | .encPixl => .encIn 0x0FF
  | .encPixbad b => .encIn (dataWord b)
  | .encEof d => .encIn (eofWord d)
  | .encReset => .encRst
  | .frmEnc len => .frame len
  | .frmDec bs => .unframe bs
  | .decRun n => .decIn (dataWord n)
  | .decEof d => .decIn (eofWord d)
  | .decReset => .decRst

/-! ### The opcode table as data -/

/-- The mnemonic of an operation, as spec/opcode_table.json writes it (R89). -/
def Instr.mnemonic : Instr → String
  | .encPixd => "ENC.PIXD"
  | .encPixl => "ENC.PIXL"
  | .encPixbad _ => "ENC.PIXBAD"
  | .encEof _ => "ENC.EOF"
  | .encReset => "ENC.RESET"
  | .frmEnc _ => "FRM.ENC"
  | .frmDec _ => "FRM.DEC"
  | .decRun _ => "DEC.RUN"
  | .decEof _ => "DEC.EOF"
  | .decReset => "DEC.RESET"

/-- A symbol row of the table: its space, its place in the order of that space, its match and its mask. -/
structure SymRow where
  mnemonic : String
  space : Port
  order : Nat
  matchWord : PortWord
  mask : PortWord
  deriving DecidableEq, Repr

/-- The six symbol rows of spec/opcode_table.json (R88). The other four rows are selected by a signal or are
functions, and have no word. -/
def symRows : List SymRow :=
  [ ⟨"ENC.PIXD", .encIn, 1, 0x000, 0x1FF⟩,
    ⟨"ENC.PIXL", .encIn, 2, 0x0FF, 0x1FF⟩,
    ⟨"ENC.PIXBAD", .encIn, 3, 0x000, 0x100⟩,
    ⟨"ENC.EOF", .encIn, 4, 0x100, 0x100⟩,
    ⟨"DEC.RUN", .decIn, 1, 0x000, 0x100⟩,
    ⟨"DEC.EOF", .decIn, 2, 0x100, 0x100⟩ ]

/-- `(sym AND mask) = match` (R88). -/
def SymRow.takes (r : SymRow) (w : PortWord) : Bool := w &&& r.mask == r.matchWord

/-- A ternary pattern over nine bits: the bits it fixes and their values. -/
structure Pattern where
  fixed : PortWord
  value : PortWord
  deriving DecidableEq, Repr

/-- A word matches a pattern when its fixed bits have the pattern's values. -/
def Pattern.takes (p : Pattern) (w : PortWord) : Bool := w &&& p.fixed == p.value

/-- The fourteen `exclusive_encodings` of the `ENC.PIXBAD` row (R88), for a decoder that wants disjoint
rows. -/
def pixbadPatterns : List Pattern :=
  [ ⟨0b111000000, 0b001000000⟩, ⟨0b111000000, 0b010000000⟩,
    ⟨0b111100000, 0b000100000⟩, ⟨0b111100000, 0b011000000⟩,
    ⟨0b111110000, 0b000010000⟩, ⟨0b111110000, 0b011100000⟩,
    ⟨0b111111000, 0b000001000⟩, ⟨0b111111000, 0b011110000⟩ ] ++
  [ ⟨0b111111100, 0b000000100⟩, ⟨0b111111100, 0b011111000⟩,
    ⟨0b111111110, 0b000000010⟩, ⟨0b111111110, 0b011111100⟩,
    ⟨0b111111111, 0b000000001⟩, ⟨0b111111111, 0b011111110⟩ ]

/-! ### The host's view of a table word -/

/-- The port a table word is read at. DESIGN CHOICE (log entry 3): a table word is a 9-bit symbol and names
no port, and the same nine bits select different operations on `enc_in` and on `dec_in`; the model reads bits
8..0 on `enc_in` when bit 9 is 0, and on `dec_in` when bit 9 is 1. -/
def tableWordPort (w : Nat) : Port := if w.testBit 9 then .decIn else .encIn

/-- The instruction the decoder reads from a table word (log entry 3). A word with a bit above bit 9 is no
symbol and is refused. -/
def decodeTableWord (_nbits w : Nat) : Option Instr :=
  if w < 1024 then
    match decodeAt (tableWordPort w) (w % 512) with
    | .ok i => some i
    | .error _ => none
  else none

end Sys2Proof
end

