-- ==== Sys2Proof/Machine/Flags.lean ====
section
/-! DEFINITION. The flags (10_state.md R31): the polarity flags `ENC.pol` and `DEC.pol`, and how they are
computed. The third flag, `ENC.err`, is set and cleared by the operations of `Ops.lean`. There is no carry,
zero, overflow or sign flag. -/

namespace Sys2Proof

/-- `¬p` on a polarity flag (R7): the flip of a run break (R113, R114) and of every decoded byte (R161). -/
def Polarity.flip : Polarity → Polarity
  | .dark => .light
  | .light => .dark

/-- `level(p)`: the pixel value of a polarity, 0 or 255 (R7). -/
def Polarity.level : Polarity → Byte
  | .dark => Config.darkPixel
  | .light => Config.lightPixel

/-- The bit the flag's register holds: 0 dark, 1 light (R21, R25). -/
def Polarity.bit : Polarity → BitVec 1
  | .dark => 0
  | .light => 1

/-- The polarity of the byte at a position within a frame, counting from 0: even dark, odd light (R82,
R169). -/
def Polarity.atPosition (j : Nat) : Polarity := if j % 2 = 0 then .dark else .light

end Sys2Proof
end

