-- ==== Sys2Proof/Machine/Operands.lean ====
section
/-! DEFINITION. The forms an operand takes: the symbols a port carries, the pixels, and the spec's shorthands
for several symbols (30_encoding.md R80, R81, R89, R91). -/

namespace Sys2Proof

/-- The nine bits the hardware drives for a symbol on an output port: `EOF` is always `0x100` (R80). -/
def PortSymbol.bits : PortSymbol → PortWord
  | .data b => dataWord b
  | .eof => 0x100

/-- The symbol nine bits stand for on an input port: with `eof` = 1 the data bits are ignored (R80). -/
def PortSymbol.ofBits (w : PortWord) : PortSymbol := if symEof w then .eof else .data (symData w)

/-- A pixel value that is not one of the two levels (R81). -/
def validPixel (b : Byte) : Bool := b == Config.darkPixel || b == Config.lightPixel

/-- A valid pixel stream: every element 0 or 255 (43_codec_laws.md). -/
def validPixels (ps : List Byte) : Bool := ps.all validPixel

/-- A list of bytes as the `DATA` words of a port. -/
def dataWords (bs : List Byte) : List PortWord := bs.map dataWord

/-- A frame on a port: its bytes and the marker, as an output port carries them. -/
def frameWords (bs : List Byte) : List PortWord := dataWords bs ++ [PortSymbol.eof.bits]

/-- `DARK(n)` on `enc_in` (R91). -/
def darkWords (n : Nat) : List PortWord := List.replicate n (dataWord Config.darkPixel)

/-- `LIGHT(n)` on `enc_in` (R91). -/
def lightWords (n : Nat) : List PortWord := List.replicate n (dataWord Config.lightPixel)

/-- `CONT`: the continuation pair, 255 then 0 (R91, R54). -/
def contPair : List Byte := [255, 0]

/-- `k` continuation pairs: `rep_pairs(k)` (R142). -/
def contPairs : Nat → List Byte
  | 0 => []
  | k + 1 => contPair ++ contPairs k

/-- The sum of a list of bytes as a natural number: it never wraps (R8, R148). -/
def byteSum (bs : List Byte) : Nat := (bs.map BitVec.toNat).sum

end Sys2Proof
end

