-- ==== Sys2Proof/Machine/State.lean ====
section
/-! DEFINITION. The state of the codec as plain data (10_state.md R20 to R40): the eight registers of ENC and
DEC, the four streams, and beside them what the HOST does, which the deterministic step reads. -/

namespace Sys2Proof.Machine

/-- The registers ENC has at every level of description: `ENC.pol`, `ENC.cnt`, `ENC.err` (R21, R22, R23). -/
structure EncRegs where
  pol : Polarity
  cnt : BitVec 8
  err : Bool
  deriving DecidableEq, Repr

/-- What the HOST drives at one clock edge (R51, R230): the two reset signals, `valid` of the two input ports
and `ready` of the two output ports. A port's `sym` is the first symbol of its input stream (R52). -/
structure Edge where
  encRst : Bool
  decRst : Bool
  encInValid : Bool
  encOutReady : Bool
  decInValid : Bool
  decOutReady : Bool
  deriving DecidableEq, Repr

/-- The value of the last application of FRM, which has no state and no port of its own (R33): the model's
place for a function's value (log entry 5). -/
inductive FrmResult where
  | none
  | bytes (bs : List Byte)
  | length (len : Nat)
  deriving DecidableEq, Repr

/-- The machine: its registers, its streams, and the HOST's plan (R20, R40). -/
structure State where
  /-- `ENC.pol`, `ENC.cnt`, `ENC.err`. -/
  enc : EncRegs
  /-- `ENC.pend`: produced and not yet delivered, the next one first (R24). -/
  encPend : List PortSymbol
  /-- `DEC.pol` (R25). -/
  decPol : Polarity
  /-- `DEC.run_pol` (R26). -/
  decRunPol : Polarity
  /-- `DEC.rem` (R27). -/
  decRem : BitVec 8
  /-- `DEC.pend_eof` (R28). -/
  decPendEof : Bool
  /-- The stream `enc_in`: the symbols not yet consumed, the next one first (R50, R52). -/
  encIn : List PortWord
  /-- The stream `enc_out`: the symbols delivered, the first one first (R50, R53). -/
  encOut : List PortWord
  /-- The stream `dec_in`: the symbols not yet consumed, the next one first (R50, R52). -/
  decIn : List PortWord
  /-- The stream `dec_out`: the symbols delivered, the first one first (R50, R53). -/
  decOut : List PortWord
  /-- The symbol standing offered on `enc_in` since an earlier edge, if one is (R242). -/
  encHeld : Option PortWord
  /-- The symbol standing offered on `dec_in` since an earlier edge, if one is (R242). -/
  decHeld : Option PortWord
  /-- Whether the HOST has wired `enc_out` to `dec_in` (R64). -/
  linked : Bool
  /-- What the HOST drives at the clock edges to come, the next one first (R40). -/
  schedule : List Edge
  /-- The value of the last application of FRM (R9, R33). -/
  frm : FrmResult
  deriving DecidableEq, Repr

/-- The reasons a step stops with a fault: there are none. The codec's one fault, `InvalidPixelValue`, is a
next state with `ENC.err` = 1 that only `ENC.RESET` leaves (R201, R206), and there is no other failure mode
(R203). -/
inductive Fault where
  deriving DecidableEq, Repr

/-- The reasons a step or an operation has no meaning. -/
inductive Refusal where
  /-- An operation of the opcode table that has no meaning yet. No arm raises it now. Safe. -/
  | notModelled (mnemonic : String)
  /-- Raised by `FRM.DEC` on a byte list that is the framing of no length: "a model refuses; it must not
  return a number" (R143, U12). Safe. -/
  | notAFraming
  /-- Raised by a clock edge at which the HOST has dropped or changed a symbol it had offered on an input port
  before its beat: "a model gives such a run no meaning" (R242, U10). Safe. -/
  | portDiscipline (p : Port)
  deriving DecidableEq, Repr

/-- The registers of ENC after reset (R37). -/
def EncRegs.reset : EncRegs := { pol := .dark, cnt := 0, err := false }

/-- The machine right after both blocks' reset (R37, R231): every register at the value of R37's table, the
streams empty, and no HOST activity planned (log entry 4). -/
def State.reset : State :=
  { enc := EncRegs.reset
    encPend := []
    decPol := .dark
    decRunPol := .dark
    decRem := 0
    decPendEof := false
    encIn := []
    encOut := []
    decIn := []
    decOut := []
    encHeld := none
    decHeld := none
    linked := false
    schedule := []
    frm := .none }

end Sys2Proof.Machine
end

