-- ==== Sys2Proof/Machine/Ops.lean ====
section
/-! DEFINITION. The named operations over the registers and the streams: reading and writing a stream, the two
blocks' readiness, an operation's input beat, entering the fault state and leaving it (20_memory.md R52, R53;
40_encoder.md R118; 42_decoder.md R164; 60_exceptions.md R206, R207). -/

namespace Sys2Proof.Machine

/-- One outcome after another: the second runs on the next state of the first. -/
def andThen (o : Host.Outcome State Fault Refusal) (f : State → Host.Outcome State Fault Refusal) :
    Host.Outcome State Fault Refusal :=
  match o with
  | .next s => f s
  | .fault r => .fault r
  | .refused r => .refused r

/-! ### The streams -/

/-- `InPop(enc_in)`: the first symbol not yet consumed leaves the stream (R52). -/
def State.popEncIn (s : State) : State := { s with encIn := s.encIn.tail }

/-- `InPop(dec_in)` (R52). -/
def State.popDecIn (s : State) : State := { s with decIn := s.decIn.tail }

/-- `OutPush(enc_out, y)` at the output beat (R53). -/
def State.pushEncOut (s : State) (y : PortSymbol) : State := { s with encOut := s.encOut ++ [y.bits] }

/-- `OutPush(dec_out, y)` at the output beat (R53). -/
def State.pushDecOut (s : State) (y : PortSymbol) : State := { s with decOut := s.decOut ++ [y.bits] }

/-! ### Readiness for a symbol, the reset signal apart -/

/-- ENC can consume a symbol: nothing pending and no fault (R51, R118). -/
def State.encReady (s : State) : Bool := s.encPend.isEmpty && !s.enc.err

/-- DEC can consume a symbol: nothing left of a run and no marker pending (R51, R164). -/
def State.decReady (s : State) : Bool := s.decRem == 0 && !s.decPendEof

/-! ### Input beats -/

/-- The input beat of ENC for an operation given as a function of the registers (R118): the operation is
applied and its output list is parked in `ENC.pend`. When ENC cannot consume a symbol the operation is not
performed and the state stays (R206; log entry 6). -/
def encInputBeat (op : EncRegs → EncRegs × List PortSymbol) (s : State) : Host.Outcome State Fault Refusal :=
  if s.encReady then .next { s with enc := (op s.enc).1, encPend := (op s.enc).2 } else .next s

/-- The input beat of DEC for an operation given as a change of the state (R164). When DEC cannot consume a
symbol the operation is not performed and the state stays (log entry 6). -/
def decInputBeat (op : State → State) (s : State) : Host.Outcome State Fault Refusal :=
  if s.decReady then .next (op s) else .next s

/-! ### Output beats -/

/-- The output beat of ENC: the head of `ENC.pend` is delivered (R119). -/
def State.encDeliver (s : State) : State :=
  match s.encPend with
  | [] => s
  | y :: ys => { s with encPend := ys }.pushEncOut y

/-- The symbol DEC has to deliver next: a pixel of the run being expanded, or the pending marker (R51,
R165). -/
def State.decNext (s : State) : Option PortSymbol :=
  if s.decRem ≠ 0 then some (.data s.decRunPol.level)
  else if s.decPendEof then some .eof
  else none

/-- The output beat of DEC (R165): one pixel, and `DEC.rem` goes down by 1; or the marker, and
`DEC.pend_eof` is cleared. -/
def State.decDeliver (s : State) : State :=
  if s.decRem ≠ 0 then { s with decRem := s.decRem - 1 }.pushDecOut (.data s.decRunPol.level)
  else if s.decPendEof then { s with decPendEof := false }.pushDecOut .eof
  else s

/-- Everything DEC has still to deliver for the symbol it consumed last, in order. -/
def State.decPending (s : State) : List PortSymbol :=
  List.replicate s.decRem.toNat (.data s.decRunPol.level) ++ (if s.decPendEof then [.eof] else [])

/-! ### The fault and its end -/

/-- `raise InvalidPixelValue` (R206): the flag is set, `ENC.pol` and `ENC.cnt` keep their values, nothing is
pushed, and control goes nowhere, there being no handler. -/
def raiseInvalidPixelValue (r : EncRegs) : EncRegs × List PortSymbol := ({ r with err := true }, [])

/-- The way out of the fault state (R207): ENC's reset, which also discards the frame in progress and what is
pending (R117). -/
def State.resetEnc (s : State) : State := { s with enc := EncRegs.reset, encPend := [] }

/-- DEC's reset (R163). -/
def State.resetDec (s : State) : State :=
  { s with decPol := .dark, decRunPol := .dark, decRem := 0, decPendEof := false }

end Sys2Proof.Machine
end

