-- ==== Sys2Proof/Machine/Decoder.lean ====
section
/-! DEFINITION. The decoder's operations (42_decoder.md R161 to R163), each as a change of the state at its
input beat (R164). -/

namespace Sys2Proof.Machine

/-- `DEC.RUN n` at its input beat: the polarity of the run is kept, its length loaded, and the polarity flag
flipped, whatever `n` is (R161, R164). -/
def State.loadRun (n : Byte) (s : State) : State :=
  { s with decRunPol := s.decPol, decRem := n, decPol := s.decPol.flip }

/-- `DEC.EOF` at its input beat: the marker is pending and the polarity is dark (R162, R164). -/
def State.loadEof (s : State) : State := { s with decPendEof := true, decPol := .dark }

/-- `DEC.RUN n` (R161, R164). -/
def execDecRun (n : Byte) (s : State) : Host.Outcome State Fault Refusal := decInputBeat (State.loadRun n) s

/-- `DEC.EOF` (R162, R164): the symbol's data bits are ignored. -/
def execDecEof (_d : Byte) (s : State) : Host.Outcome State Fault Refusal := decInputBeat State.loadEof s

/-- `DEC.RESET` (R163). -/
def execDecReset (s : State) : Host.Outcome State Fault Refusal := .next s.resetDec

end Sys2Proof.Machine
end

