-- ==== Sys2Proof/Machine/Encoder.lean ====
section
/-! DEFINITION. The encoder's operations (40_encoder.md R113 to R117). Each operation is first a function of
ENC's registers that also gives its output list, as the spec's pseudocode has it (Level O), and then an input
beat that parks that list in `ENC.pend` (Level B, R118). -/

namespace Sys2Proof.Machine

/-- A pixel of level `p` (R113 and R114 in one). It continues the run of its own polarity: the count goes up,
or, when it stands at 255, a continuation pair is spilled and the count is 1 again. It breaks a run of the
other polarity: the count is emitted, a new run of length 1 begins, and the polarity is the pixel's. -/
def encPixel (p : Polarity) (r : EncRegs) : EncRegs × List PortSymbol :=
  if r.pol = p then
    if r.cnt.toNat < Config.maxB then ({ r with cnt := r.cnt + 1 }, [])
    else ({ r with cnt := 1 }, [.data 255, .data 0])
  else ({ r with cnt := 1, pol := p }, [.data r.cnt])

/-- `ENC.EOF` on the registers: the last run's byte and the marker, and the frame-start state (R116). -/
def encEndFrame (r : EncRegs) : EncRegs × List PortSymbol :=
  ({ r with cnt := 0, pol := .dark }, [.data r.cnt, .eof])

/-- `ENC.PIXD` (R113). -/
def execEncPixd (s : State) : Host.Outcome State Fault Refusal := encInputBeat (encPixel .dark) s

/-- `ENC.PIXL` (R114). -/
def execEncPixl (s : State) : Host.Outcome State Fault Refusal := encInputBeat (encPixel .light) s

/-- `ENC.PIXBAD` (R115): the pixel is not recorded. -/
def execEncPixbad (_b : Byte) (s : State) : Host.Outcome State Fault Refusal :=
  encInputBeat raiseInvalidPixelValue s

/-- `ENC.EOF` (R116): the symbol's data bits are ignored. -/
def execEncEof (_d : Byte) (s : State) : Host.Outcome State Fault Refusal := encInputBeat encEndFrame s

/-- `ENC.RESET` (R117). -/
def execEncReset (s : State) : Host.Outcome State Fault Refusal := .next s.resetEnc

end Sys2Proof.Machine
end

