-- ==== Sys2Proof/Machine/Framer.lean ====
section
/-! DEFINITION. The framer (41_framer.md R141, R143): the functions `frame` and `unframe`, and the two
operations that apply them. -/

namespace Sys2Proof

/-- The loop of `frame` with at most `fuel` rounds: while the length is above 255 a continuation pair is
written and 255 subtracted (R141). -/
def frameLoop : Nat → Nat → List Byte
  | 0, len => [BitVec.ofNat 8 len]
  | fuel + 1, len =>
    if len > Config.maxB then contPair ++ frameLoop fuel (len - Config.maxB) else [BitVec.ofNat 8 len]

/-- `frame(L)`, the source's `encode_length_bytes` (R141). Each round subtracts 255, so `L div 255` rounds are
never too few. -/
def frame (len : Nat) : List Byte := if len = 0 then [0] else frameLoop (len / Config.maxB) len

/-- `unframe(bs)`, the source's `decode_length_bytes` (R143): the sum of the bytes where they are the framing
of that sum, and no value elsewhere. -/
def unframe (bs : List Byte) : Option Nat :=
  if frame (byteSum bs) = bs then some (byteSum bs) else none

end Sys2Proof

namespace Sys2Proof.Machine

/-- `FRM.ENC` (R141): the framing of a run length. No register changes: FRM has none (R33). -/
def execFrmEnc (len : Nat) (s : State) : Host.Outcome State Fault Refusal :=
  .next { s with frm := .bytes (frame len) }

/-- `FRM.DEC` (R143): the length a framing stands for. A list that is no framing has no value and is
refused. -/
def execFrmDec (bs : List Byte) (s : State) : Host.Outcome State Fault Refusal :=
  match unframe bs with
  | some len => .next { s with frm := .length len }
  | none => .refused .notAFraming

end Sys2Proof.Machine
end

