-- ==== Sys2Proof/Machine/Dispatch.lean ====
section
/-! DEFINITION. One arm for each operation of spec/opcode_table.json. -/

namespace Sys2Proof.Machine

def exec (i : Instr) (s : State) : Host.Outcome State Fault Refusal :=
  match i with
  | .encPixd => Sys2Proof.Machine.execEncPixd s
  | .encPixl => Sys2Proof.Machine.execEncPixl s
  | .encPixbad b => Sys2Proof.Machine.execEncPixbad b s
  | .encEof d => Sys2Proof.Machine.execEncEof d s
  | .encReset => Sys2Proof.Machine.execEncReset s
  | .frmEnc len => Sys2Proof.Machine.execFrmEnc len s
  | .frmDec bs => Sys2Proof.Machine.execFrmDec bs s
  | .decRun n => Sys2Proof.Machine.execDecRun n s
  | .decEof d => Sys2Proof.Machine.execDecEof d s
  | .decReset => Sys2Proof.Machine.execDecReset s

end Sys2Proof.Machine
end

