-- ==== Sys2Proof/Machine/Ports.lean ====
section
/-! DEFINITION. The signals of the four ports (20_memory.md R51) and the discipline the HOST keeps on the two
input ports (70_reset_and_hazards.md R242). -/

namespace Sys2Proof.Machine

/-! ### What the hardware drives (R51) -/

/-- `enc_in_ready`. -/
def encInReady (rst : Bool) (s : State) : Bool := s.encReady && !rst

/-- `enc_out_valid`. -/
def encOutValid (rst : Bool) (s : State) : Bool := !s.encPend.isEmpty && !rst

/-- `enc_out_sym`, where `enc_out_valid` is 1. -/
def encOutSym (rst : Bool) (s : State) : Option PortWord :=
  if encOutValid rst s then s.encPend.head?.map PortSymbol.bits else none

/-- `dec_in_ready`. -/
def decInReady (rst : Bool) (s : State) : Bool := s.decReady && !rst

/-- `dec_out_valid`. -/
def decOutValid (rst : Bool) (s : State) : Bool := !s.decReady && !rst

/-- `dec_out_sym`, where `dec_out_valid` is 1. -/
def decOutSym (rst : Bool) (s : State) : Option PortWord :=
  if decOutValid rst s then s.decNext.map PortSymbol.bits else none

/-- The wire `enc_err` (R32). -/
def encErrWire (s : State) : Bool := s.enc.err

/-! ### What stands on the ports at an edge -/

/-- The symbol offered on `enc_in`: the first of the stream, if the HOST raises `valid` (R52). -/
def encOffer (e : Edge) (s : State) : Option PortWord := if e.encInValid then s.encIn.head? else none

/-- The symbol offered on `dec_in`: the first of the stream, if the HOST raises `valid` (R52); where the HOST
has wired `enc_out` to `dec_in`, what ENC drives (R64). -/
def decOffer (e : Edge) (s : State) : Option PortWord :=
  if s.linked then encOutSym e.encRst s
  else if e.decInValid then s.decIn.head? else none

/-- `enc_out_ready`: the HOST's, or `dec_in_ready` where it has wired the two (R64). -/
def encAccept (e : Edge) (s : State) : Bool :=
  if s.linked then decInReady e.decRst s else e.encOutReady

/-! ### Beats (R51): `valid` and `ready` both 1 -/

/-- The symbol that passes on `enc_in` at this edge. -/
def encInBeat (e : Edge) (s : State) : Option PortWord :=
  if encInReady e.encRst s then encOffer e s else none

/-- Whether a symbol passes on `enc_out` at this edge. -/
def encOutBeat (e : Edge) (s : State) : Bool := encOutValid e.encRst s && encAccept e s

/-- The symbol that passes on `dec_in` at this edge. -/
def decInBeat (e : Edge) (s : State) : Option PortWord :=
  if decInReady e.decRst s then decOffer e s else none

/-- Whether a symbol passes on `dec_out` at this edge. -/
def decOutBeat (e : Edge) (s : State) : Bool := decOutValid e.decRst s && e.decOutReady

/-! ### The HOST's discipline on the input ports (R242) -/

/-- A symbol that stands offered is offered unchanged. -/
def offerKept (held offer : Option PortWord) : Bool := held == none || offer == held

/-- The port on which the HOST breaks the discipline at this edge, if it does. Where `enc_out` is wired to
`dec_in` and ENC is being reset, it is ENC that withdraws the symbol, as R51's equations say, not the HOST
(log entry 9). -/
def brokenOffer (e : Edge) (s : State) : Option Port :=
  if !offerKept s.encHeld (encOffer e s) then some .encIn
  else if !(offerKept s.decHeld (decOffer e s) || (s.linked && e.encRst)) then some .decIn
  else none

/-- What stands offered after this edge: a symbol offered without a beat. -/
def heldAfter (offer beat : Option PortWord) : Option PortWord := if beat.isSome then none else offer

end Sys2Proof.Machine
end

