-- ==== Sys2Proof/Machine/Edge.lean ====
section
/-! DEFINITION. What one clock edge does (20_memory.md R51; 40_encoder.md R118, R119; 42_decoder.md R164,
R165; 60_exceptions.md R205): each block is reset, or has an input beat, or has an output beat, or waits. -/

namespace Sys2Proof.Machine

/-- What a block does at one clock edge. -/
inductive BlockAction where
  /-- The block's reset signal is 1: reset wins (R205). -/
  | reset
  /-- An input beat with this symbol. -/
  | input (w : PortWord)
  /-- An output beat. -/
  | output
  /-- No beat: the block waits with its state unchanged (R213). -/
  | wait
  deriving DecidableEq, Repr

/-- What ENC does at this edge (R205). -/
def encAction (e : Edge) (s : State) : BlockAction :=
  if e.encRst then .reset
  else match encInBeat e s with
    | some w => .input w
    | none => if encOutBeat e s then .output else .wait

/-- What DEC does at this edge (R205). -/
def decAction (e : Edge) (s : State) : BlockAction :=
  if e.decRst then .reset
  else match decInBeat e s with
    | some w => .input w
    | none => if decOutBeat e s then .output else .wait

/-- ENC's part of an edge. A consumed symbol leaves `enc_in` and the operation it selects is run. -/
def encAct (a : BlockAction) (s : State) : Host.Outcome State Fault Refusal :=
  match a with
  | .reset => exec (decode .encRst) s
  | .input w => exec (decode (.encIn w)) s.popEncIn
  | .output => .next s.encDeliver
  | .wait => .next s

/-- DEC's part of an edge. A consumed symbol leaves `dec_in`, unless it came over the wire from `enc_out`
(R64), and the operation it selects is run. -/
def decAct (a : BlockAction) (s : State) : Host.Outcome State Fault Refusal :=
  match a with
  | .reset => exec (decode .decRst) s
  | .input w => exec (decode (.decIn w)) (if s.linked then s else s.popDecIn)
  | .output => .next s.decDeliver
  | .wait => .next s

/-- The offers that stand after this edge (R242). -/
def State.noteOffers (e : Edge) (s : State) : State :=
  { s with
    encHeld := heldAfter (encOffer e s) (encInBeat e s)
    decHeld := heldAfter (decOffer e s) (decInBeat e s) }

/-- One clock edge. Every signal is read before the edge and both blocks act on what they read, so the order in
which their parts are written here does not matter (R59, R51; log entry 12). An edge at which the HOST breaks
the port discipline has no meaning (R242). -/
def clockEdge (e : Edge) (s : State) : Host.Outcome State Fault Refusal :=
  match brokenOffer e s with
  | some p => .refused (.portDiscipline p)
  | none => andThen (encAct (encAction e s) (s.noteOffers e)) (decAct (decAction e s))

end Sys2Proof.Machine
end

