-- ==== Sys2Proof/Machine/Fetch.lean ====
section
/-! DEFINITION. Placing a symbol so that the very next clock edge consumes it. No rule of the spec describes
this: it is how a tool outside the machine hands the step one operation (log entry 3). -/

namespace Sys2Proof.Machine

/-- An edge at which the HOST offers a symbol on one port and does nothing else. -/
def offerEdge (p : Port) : Edge :=
  { encRst := false, decRst := false, encInValid := p == .encIn, encOutReady := false,
    decInValid := p == .decIn, decOutReady := false }

/-- The symbol `w` first in the stream of an input port, the HOST's next edge one that offers it alone, the
port's block ready for it, no earlier offer standing, and for `dec_in` the two blocks not wired together.
Nothing else changes. Nothing is offered on an output port. -/
def State.offerFirst (s : State) (p : Port) (w : PortWord) : State :=
  match p with
  | .encIn =>
    { s with encIn := w :: s.encIn, encPend := [], enc := { s.enc with err := false }, encHeld := none,
             decHeld := none, schedule := offerEdge .encIn :: s.schedule }
  | .decIn =>
    { s with decIn := w :: s.decIn, decRem := 0, decPendEof := false, encHeld := none, decHeld := none,
             linked := false, schedule := offerEdge .decIn :: s.schedule }
  | .encOut => s
  | .decOut => s

end Sys2Proof.Machine
end

