-- ==== Sys2Proof/Machine/Step.lean ====
section
/-! DEFINITION. One step of the machine: the next clock edge of the HOST's schedule; and where a step finds the
symbol it consumes. -/

namespace Sys2Proof.Machine

/-- One step: the next clock edge. When the HOST's schedule is at its end nothing happens any more: the blocks
wait on their ports with their state unchanged (R213; log entry 11). -/
def step (s : State) : Host.Outcome State Fault Refusal :=
  match s.schedule with
  | [] => .next s
  | e :: es => clockEdge e { s with schedule := es }

/-- The state with a table word placed where the next step takes its operation from (log entry 3). -/
def State.withFetchWord (s : State) (_nbits w : Nat) : State := s.offerFirst (tableWordPort w) (BitVec.ofNat 9 w)

end Sys2Proof.Machine
end

