-- ==== Sys2Proof/Machine/Commit.lean ====
section
/-! DEFINITION. What of an output stream is committed (40_encoder.md R124; 60_exceptions.md R211;
70_reset_and_hazards.md R240). The HOST keeps this account, not the hardware (R38), so it stands beside a run and
outside `State` (log entry 18). -/

namespace Sys2Proof.Machine

/-- What the HOST sees of a block's output at a clock edge. -/
inductive Seen where
  /-- A symbol delivered. -/
  | word (w : PortWord)
  /-- The block is reset, or `enc_err` is 1: whatever of a frame has been received is void. -/
  | void
  deriving DecidableEq, Repr

/-- The words of committed frames, given the words received since the last marker (or reset). A marker commits
them; a fault or a reset makes the HOST discard them (R124, R240). -/
def commitFrom (received : List PortWord) : List Seen → List PortWord
  | [] => []
  | .void :: es => commitFrom [] es
  | .word w :: es =>
    if symEof w then received ++ w :: commitFrom [] es else commitFrom (received ++ [w]) es

/-- The committed output: the frames whose marker has been delivered, with no fault and no reset since the frame
began (R124, R240). -/
def committed (es : List Seen) : List PortWord := commitFrom [] es

/-- What the HOST sees of ENC at an edge: its reset signal, the wire `enc_err`, or a beat on `enc_out`. -/
def encSeenAt (e : Edge) (s : State) : List Seen :=
  if e.encRst || encErrWire s then [.void]
  else if encOutBeat e s then (encOutSym e.encRst s).toList.map .word
  else []

/-- What the HOST sees of DEC at an edge: its reset signal, or a beat on `dec_out`. DEC has no fault (R203).
DESIGN CHOICE (log entry 19): where `enc_out` is wired to `dec_in`, a fault or a reset of ENC alone voids nothing on
`dec_out`; R124 and R240 speak of `enc_out` and of DEC's own reset only, and leave the wired case open. -/
def decSeenAt (e : Edge) (s : State) : List Seen :=
  if e.decRst then [.void]
  else if decOutBeat e s then (decOutSym e.decRst s).toList.map .word
  else []

/-- What the HOST sees, in order, over the next `n` steps, of what `seenAt` sees at one edge. -/
def seenOver (seenAt : Edge → State → List Seen) : Nat → State → List Seen
  | 0, _ => []
  | n + 1, s =>
    match s.schedule with
    | [] => []
    | e :: _ =>
      match step s with
      | .next t => seenAt e s ++ seenOver seenAt n t
      | .fault _ => []
      | .refused _ => []

/-- What ENC has committed after `n` steps (R124). -/
def encCommitted (n : Nat) (s : State) : List PortWord := committed (seenOver encSeenAt n s)

/-- What DEC has committed after `n` steps (R240). -/
def decCommitted (n : Nat) (s : State) : List PortWord := committed (seenOver decSeenAt n s)

end Sys2Proof.Machine
end

