-- ==== Sys2Proof/Machine/Functions.lean ====
section
/-! DEFINITION. Level F: the whole-buffer functions, which are the normative contract (00_scope.md R10):
`encode` (40_encoder.md R110), `decode` (42_decoder.md R160), and the notions their laws speak of
(30_encoding.md R85, R86; 43_codec_laws.md R184, R186). -/

namespace Sys2Proof

/-- The value of the function `encode`: a byte list, or the error `InvalidPixelValue` (R110). -/
inductive Encoded where
  | bytes (bs : List Byte)
  | invalidPixelValue
  deriving DecidableEq, Repr

/-- Bytes already written, in front of a value of `encode`; an error has no bytes at all (R110, R124). -/
def Encoded.after (bs : List Byte) : Encoded → Encoded
  | .bytes cs => .bytes (bs ++ cs)
  | .invalidPixelValue => .invalidPixelValue

/-- The scan of R110 from a polarity and a count that is not bounded. -/
def encodeFrom (pol : Polarity) (c : Nat) : List Byte → Encoded
  | [] => .bytes (frame c)
  | p :: ps =>
    if !validPixel p then .invalidPixelValue
    else if p = pol.level then encodeFrom pol (c + 1) ps
    else (encodeFrom pol.flip 1 ps).after (frame c)

/-- `encode(P)` (R110). -/
def encodeFrame (ps : List Byte) : Encoded := encodeFrom .dark 0 ps

/-- The loop of R160 from a polarity. -/
def decodeFrom (pol : Polarity) : List Byte → List Byte
  | [] => []
  | b :: bs => List.replicate b.toNat pol.level ++ decodeFrom pol.flip bs

/-- `decode(B)` (R160): total on every byte list. -/
def decodeFrame (bs : List Byte) : List Byte := decodeFrom .dark bs

/-- `inv`: 0 and 255 swapped in every element (R186). -/
def invertPixels (ps : List Byte) : List Byte :=
  ps.map fun p => if p = Config.darkPixel then Config.lightPixel else Config.darkPixel

/-- Which byte sequences are canonical, as R85 states it: (a), (b) and (c). -/
def Canonical (bs : List Byte) : Prop :=
  bs ≠ [] ∧
  (∀ i, bs[i + 1]? = some 0 → bs[i]? = some 255 ∧ ∃ c, bs[i + 2]? = some c ∧ c ≠ 0) ∧
  (bs[0]? = some 0 → bs = [0] ∨ ∃ c, bs[1]? = some c ∧ c ≠ 0)

/-- Condition (b) of R85 on the bytes that follow the byte `prev`. -/
def canonicalAfter (prev : Byte) : List Byte → Bool
  | [] => true
  | [b] => b != 0
  | b :: c :: bs => (b != 0 || (prev == 255 && c != 0)) && canonicalAfter b (c :: bs)

/-- R85's three conditions, as a check that runs. -/
def isCanonical : List Byte → Bool
  | [] => false
  | [_] => true
  | b :: c :: bs => (b != 0 || c != 0) && canonicalAfter b (c :: bs)

/-- The reading loop of R86 with the length gathered so far: a 255 that a 0 follows at once is the first half
of a continuation pair, and any other byte is a terminal byte. -/
def runsFrom (acc : Nat) : List Byte → List Nat
  | [] => []
  | [b] => [acc + b.toNat]
  | b :: c :: bs =>
    if b = 255 ∧ c = 0 then runsFrom (acc + Config.maxB) bs else (acc + b.toNat) :: runsFrom 0 (c :: bs)

/-- `runs(B)`: the run lengths of a canonical frame (R86). It is not meaningful on any other list, and has no
value there. -/
def runs (bs : List Byte) : Option (List Nat) := if isCanonical bs then some (runsFrom 0 bs) else none

/-- The maximal runs of one value in a pixel stream, each as its value and its length (R11). -/
def maximalRuns : List Byte → List (Byte × Nat)
  | [] => []
  | p :: ps =>
    match maximalRuns ps with
    | [] => [(p, 1)]
    | (q, n) :: rs => if p = q then (q, n + 1) :: rs else (p, 1) :: (q, n) :: rs

/-- The run lengths `r0, ..., rm` of R85 and R184: those of the maximal runs, with a leading dark run of length
0 when the stream is empty or starts light. -/
def runLengths (ps : List Byte) : List Nat :=
  match maximalRuns ps with
  | [] => [0]
  | (q, n) :: rs => if q = Config.darkPixel then n :: rs.map Prod.snd else 0 :: n :: rs.map Prod.snd

end Sys2Proof
end

