-- ==== Sys2Proof/Machine/LevelO.lean ====
section
/-! DEFINITION. Level O: the same two machines with one step for each symbol consumed, each step giving its
whole list of output symbols at once (00_scope.md R10; 20_memory.md R52, R53). -/

namespace Sys2Proof.Machine

/-- An operation of ENC on its registers, with its output list (R113 to R117). The operations of the other two
blocks leave ENC's registers alone (R59). -/
def encOp (i : Instr) (r : EncRegs) : EncRegs × List PortSymbol :=
  match i with
  | .encPixd => encPixel .dark r
  | .encPixl => encPixel .light r
  | .encPixbad _ => raiseInvalidPixelValue r
  | .encEof _ => encEndFrame r
  | .encReset => (EncRegs.reset, [])
  | .frmEnc _ => (r, [])
  | .frmDec _ => (r, [])
  | .decRun _ => (r, [])
  | .decEof _ => (r, [])
  | .decReset => (r, [])

/-- An operation of DEC on `DEC.pol`, with its output list (R161 to R163). -/
def decOp (i : Instr) (pol : Polarity) : Polarity × List PortSymbol :=
  match i with
  | .decRun n => (pol.flip, List.replicate n.toNat (.data pol.level))
  | .decEof _ => (.dark, [.eof])
  | .decReset => (.dark, [])
  | .encPixd => (pol, [])
  | .encPixl => (pol, [])
  | .encPixbad _ => (pol, [])
  | .encEof _ => (pol, [])
  | .encReset => (pol, [])
  | .frmEnc _ => (pol, [])
  | .frmDec _ => (pol, [])

/-- A run of ENC: its registers at the end, what it emitted, and what it did not consume. -/
structure EncRun where
  regs : EncRegs
  out : List PortSymbol
  rest : List PortWord
  deriving DecidableEq, Repr

/-- ENC on a list of input symbols: one operation for each, until a fault, after which no symbol is consumed
(R206). -/
def encRun (r : EncRegs) : List PortWord → EncRun
  | [] => { regs := r, out := [], rest := [] }
  | w :: ws =>
    if r.err then { regs := r, out := [], rest := w :: ws }
    else
      let t := encRun (encOp (decodeEncIn w) r).1 ws
      { t with out := (encOp (decodeEncIn w) r).2 ++ t.out }

/-- DEC on a list of input symbols: its polarity at the end, and what it emitted. -/
def decRun (pol : Polarity) : List PortWord → Polarity × List PortSymbol
  | [] => (pol, [])
  | w :: ws =>
    let t := decRun (decOp (decodeDecIn w) pol).1 ws
    (t.1, (decOp (decodeDecIn w) pol).2 ++ t.2)

end Sys2Proof.Machine
end

