-- ==== Sys2Proof/Machine/Ghost.lean ====
section
/-! DEFINITION. The ghost variables of 10_state.md R39: quantities used only to state rules, which no register
holds (R38) and no operation reads. They are kept beside a Level O run, outside `State`. -/

namespace Sys2Proof.Machine

/-- `ENC.ipos`, `ENC.opos`, `ENC.ltrue`, `ENC.spills` (R39). -/
structure EncGhost where
  ipos : Nat
  opos : Nat
  ltrue : Nat
  spills : Nat
  deriving DecidableEq, Repr

/-- The ghosts right after reset (R30, R39). -/
def EncGhost.reset : EncGhost := { ipos := 0, opos := 0, ltrue := 0, spills := 0 }

/-- How a pixel of level `p` changes the source's counter and the count of continuation pairs (R39): a pixel
that breaks the run begins one of length 1 with none; a pixel that continues it adds 1, and one pair if the
operation spills. -/
def EncGhost.pixel (p : Polarity) (r : EncRegs) (g : EncGhost) : EncGhost :=
  if r.pol = p then
    { g with ltrue := g.ltrue + 1, spills := g.spills + (if (encPixel p r).2 = [] then 0 else 1) }
  else { g with ltrue := 1, spills := 0 }

/-- How an operation of ENC changes the source's counter and the count of continuation pairs (R39). -/
def EncGhost.run (i : Instr) (r : EncRegs) (g : EncGhost) : EncGhost :=
  match i with
  | .encPixd => g.pixel .dark r
  | .encPixl => g.pixel .light r
  | .encPixbad _ => g
  | .encEof _ => { g with ltrue := 0, spills := 0 }
  | .encReset => EncGhost.reset
  | .frmEnc _ => g
  | .frmDec _ => g
  | .decRun _ => g
  | .decEof _ => g
  | .decReset => g

/-- The ghosts after ENC consumes the symbol `w` (R39): each consumed symbol counts 1, each emitted one 1. -/
def EncGhost.consume (w : PortWord) (r : EncRegs) (g : EncGhost) : EncGhost :=
  let h := g.run (decodeEncIn w) r
  { h with ipos := h.ipos + 1, opos := h.opos + (encOp (decodeEncIn w) r).2.length }

/-- The ghosts along a run of ENC. -/
def encGhostRun (r : EncRegs) (g : EncGhost) : List PortWord → EncGhost
  | [] => g
  | w :: ws =>
    if r.err then g else encGhostRun (encOp (decodeEncIn w) r).1 (g.consume w r) ws

/-- `DEC.ipos`, `DEC.opos` (R39). -/
structure DecGhost where
  ipos : Nat
  opos : Nat
  deriving DecidableEq, Repr

/-- The ghosts of DEC along a run from reset (R39). -/
def decGhostRun (pol : Polarity) (ws : List PortWord) : DecGhost :=
  { ipos := ws.length, opos := (decRun pol ws).2.length }

/-- The relation between the register and the source's counter (R39). -/
def EncGhost.agrees (g : EncGhost) (r : EncRegs) : Prop :=
  r.cnt.toNat + 255 * g.spills = g.ltrue ∧
  (g.ltrue = 0 → g.spills = 0) ∧
  (g.ltrue ≠ 0 → g.spills = (g.ltrue - 1) / 255)

end Sys2Proof.Machine
end

