-- ==== Sys2Proof/Safety.lean ====
section
/-! DEFINITION. What the claims speak of: the invariants of reachable states (10_state.md R36), when a run is
finished (60_exceptions.md R213), and runs of many steps. What is committed is in Machine/Commit.lean. -/

namespace Sys2Proof.Machine

/-- The invariants of ENC's registers (R36 (a), (b); (a) is the width of `cnt`): a count of 0 only in dark
polarity. -/
def EncRegs.Inv (r : EncRegs) : Prop := r.cnt = 0 → r.pol = .dark

/-- Every word of an output stream is a word the hardware drives: `EOF` only as `0x100` (R80). -/
def drivenWords (ws : List PortWord) : Prop := ∀ w ∈ ws, (PortSymbol.ofBits w).bits = w

/-- R36 (b), (c), (d) and (f), and R80 and R167 of the two output streams: the pixels DEC has delivered are
dark or light. (a) and (e) are the widths of the two registers. -/
def State.Inv (s : State) : Prop :=
  s.enc.Inv ∧
  s.encPend.length ≤ Config.pendMax ∧
  (s.enc.err = true → s.encPend = []) ∧
  ¬(s.decRem ≠ 0 ∧ s.decPendEof = true) ∧
  drivenWords s.encOut ∧
  (∀ w ∈ s.decOut, w = 0x000 ∨ w = 0x0FF ∨ w = 0x100)

/-- Nothing left to do (R213): no symbol to consume, nothing pending in either block, and no fault. -/
def State.finished (s : State) : Prop :=
  s.encIn = [] ∧ s.encPend = [] ∧ s.enc.err = false ∧ s.decRem = 0 ∧ s.decPendEof = false ∧
  (s.linked = false → s.decIn = [])

/-- Steps in a row, stopping at the first that has no next state. -/
def runSteps (n : Nat) (s : State) : Host.Outcome State Fault Refusal := Sys2Proof.core.run n s

/-- Everything ENC has produced: what is delivered and what is pending, as port words. -/
def State.encProduced (s : State) : List PortWord := s.encOut ++ s.encPend.map PortSymbol.bits

/-- Everything DEC has produced: what is delivered and what is pending, as port words. -/
def State.decProduced (s : State) : List PortWord := s.decOut ++ s.decPending.map PortSymbol.bits

end Sys2Proof.Machine
end

