-- ==== Sys2Proof/Certificates/Slice0/Obligations.lean ====
section
/-! DEFINITION. The statements for the provers. Each docstring names the rules of spec/ it formalises. -/

open Sys2Proof Sys2Proof.Machine

/-! ### Encodings -/

/-- R88: decoding what `encode` gives for a well-formed operation gives the operation back, with every operand
at every value it admits. -/
def Obligations.EncodeThenDecodeGivesTheOperation : Prop :=
  ∀ i : Instr, i.wellFormed = true → decode (encode i) = i

/-- R88 ("Every symbol selects exactly one operation") and R87: whatever is decoded is well formed, and encodes
to the selector it came from, so no two selectors stand for one operation. -/
def Obligations.EverySelectorIsTheEncodingOfItsOperation : Prop :=
  ∀ x : Selector, (decode x).wellFormed = true ∧ encode (decode x) = x

/-- R88: which symbol selects which operation, by ranges of the nine bits, and which signal. -/
def Obligations.SymbolRangesSelectTheOperations : Prop :=
  (∀ w : PortWord,
    (w = 0x000 → decode (.encIn w) = .encPixd) ∧
    (w = 0x0FF → decode (.encIn w) = .encPixl) ∧
    (0x001 ≤ w → w ≤ 0x0FE → decode (.encIn w) = .encPixbad (symData w)) ∧
    (0x100 ≤ w → decode (.encIn w) = .encEof (symData w)) ∧
    (w ≤ 0x0FF → decode (.decIn w) = .decRun (symData w)) ∧
    (0x100 ≤ w → decode (.decIn w) = .decEof (symData w))) ∧
  decode .encRst = .encReset ∧ decode .decRst = .decReset

/-- R88: the decoder takes the first row, in ascending order, that a symbol matches; and the fourteen exclusive
patterns of `ENC.PIXBAD` match exactly the symbols `0x001` to `0x0FE`. -/
def Obligations.OpcodeTableRowsGiveTheDecoder : Prop :=
  (∀ w : PortWord,
    ((symRows.filter fun r => r.space == .encIn && r.takes w).map SymRow.mnemonic).head?
      = some (decode (.encIn w)).mnemonic) ∧
  (∀ w : PortWord,
    ((symRows.filter fun r => r.space == .decIn && r.takes w).map SymRow.mnemonic).head?
      = some (decode (.decIn w)).mnemonic) ∧
  (∀ w : PortWord, (pixbadPatterns.filter (·.takes w)).length
    = if 0x001 ≤ w ∧ w ≤ 0x0FE then 1 else 0)

/-- R81, R82, R87, R88: words written out bit by bit, and the operation each selects on its port. -/
def Obligations.WordsWrittenOutSelectTheirOperations : Prop :=
  decode (.encIn 0b000000000) = .encPixd ∧
  decode (.encIn 0b011111111) = .encPixl ∧
  decode (.encIn 0b010000000) = .encPixbad 128 ∧
  decode (.encIn 0b110101011) = .encEof 0xAB ∧
  decode (.decIn 0b000101101) = .decRun 45 ∧
  decode (.decIn 0b111000011) = .decEof 0xC3 ∧
  decodeAt .encIn 512 = .error .notNineBits

/-- R80: the hardware drives `EOF` as `0x100` and `DATA(b)` with `eof` = 0 and the byte in the data bits, and
on an input port all 256 words with `eof` = 1 are the one marker. -/
def Obligations.PortWordsCarrySymbols : Prop :=
  PortSymbol.eof.bits = 0x100 ∧
  (∀ b : Byte, symEof (PortSymbol.data b).bits = false ∧ symData (PortSymbol.data b).bits = b) ∧
  (∀ w : PortWord, symEof w = true → PortSymbol.ofBits w = .eof) ∧
  (∀ w : PortWord, symEof w = false → PortSymbol.ofBits w = .data (symData w)) ∧
  (∀ d : Byte, symEof (eofWord d) = true ∧ symData (eofWord d) = d)

/-! ### The operations: their result, and with it their frame. Each conclusion gives the whole next state. -/

/-- R113: `ENC.PIXD`. That with `err` = 1, where the operation is not enabled, it leaves the state is the model's
choice (log entry 6). -/
def Obligations.DarkPixelContinuesSpillsOrBreaks : Prop :=
  decode (.encIn 0x000) = .encPixd ∧
  ∀ s : State,
    (s.enc.err = true → exec .encPixd s = .next s) ∧
    (s.encPend = [] → s.enc.err = false →
      (s.enc.pol = .dark → s.enc.cnt.toNat < 255 →
        exec .encPixd s = .next { s with enc := { pol := .dark, cnt := s.enc.cnt + 1, err := false }, encPend := [] }) ∧
      (s.enc.pol = .dark → s.enc.cnt.toNat = 255 →
        exec .encPixd s
          = .next { s with enc := { pol := .dark, cnt := 1, err := false }, encPend := [.data 255, .data 0] }) ∧
      (s.enc.pol = .light →
        exec .encPixd s
          = .next { s with enc := { pol := .dark, cnt := 1, err := false }, encPend := [.data s.enc.cnt] } ∧
        (s.enc.Inv → s.enc.cnt ≠ 0)))

/-- R114: `ENC.PIXL`. That with `err` = 1, where the operation is not enabled, it leaves the state is the model's
choice (log entry 6). -/
def Obligations.LightPixelContinuesSpillsOrBreaks : Prop :=
  decode (.encIn 0x0FF) = .encPixl ∧
  ∀ s : State,
    (s.enc.err = true → exec .encPixl s = .next s) ∧
    (s.encPend = [] → s.enc.err = false →
      (s.enc.pol = .light → s.enc.cnt.toNat < 255 →
        exec .encPixl s = .next { s with enc := { pol := .light, cnt := s.enc.cnt + 1, err := false }, encPend := [] }) ∧
      (s.enc.pol = .light → s.enc.cnt.toNat = 255 →
        exec .encPixl s
          = .next { s with enc := { pol := .light, cnt := 1, err := false }, encPend := [.data 255, .data 0] }) ∧
      (s.enc.pol = .dark →
        exec .encPixl s
          = .next { s with enc := { pol := .light, cnt := 1, err := false }, encPend := [.data s.enc.cnt] }))

/-- R115: `ENC.PIXBAD` takes the fault `InvalidPixelValue`: the flag is set and nothing else changes, and in the
state it leaves no symbol is accepted, not even `EOF`. That an operation that is not enabled leaves the state, as
the clauses for `err` = 1 have it, is the model's choice (log entry 6). -/
def Obligations.InvalidPixelEntersTheFaultState : Prop :=
  (∀ b : Byte, b ≠ 0 → b ≠ 255 → decode (.encIn (dataWord b)) = .encPixbad b) ∧
  ∀ (b : Byte) (s t : State),
    (s.enc.err = true → exec (.encPixbad b) s = .next s) ∧
    (s.encPend = [] → s.enc.err = false →
      t = { s with enc := { pol := s.enc.pol, cnt := s.enc.cnt, err := true }, encPend := [] } →
      exec (.encPixbad b) s = .next t ∧
      exec .encPixd t = .next t ∧ exec .encPixl t = .next t ∧
      (∀ c, exec (.encPixbad c) t = .next t) ∧ (∀ d, exec (.encEof d) t = .next t))

/-- R116: `ENC.EOF`, for every value of the ignored data bits. That with `err` = 1, where the operation is not
enabled, it leaves the state is the model's choice (log entry 6). -/
def Obligations.EofEmitsTheLastRunAndTheMarker : Prop :=
  (∀ d : Byte, decode (.encIn (eofWord d)) = .encEof d) ∧
  ∀ (d : Byte) (s : State),
    (s.enc.err = true → exec (.encEof d) s = .next s) ∧
    (s.encPend = [] → s.enc.err = false →
      exec (.encEof d) s
        = .next { s with enc := { pol := .dark, cnt := 0, err := false }, encPend := [.data s.enc.cnt, .eof] })

/-- R117: `ENC.RESET`. -/
def Obligations.EncResetReturnsToTheInitialState : Prop :=
  decode .encRst = .encReset ∧
  ∀ s : State,
    exec .encReset s = .next { s with enc := { pol := .dark, cnt := 0, err := false }, encPend := [] }

/-- R161: `DEC.RUN n`, the same for every `n`: its output list at Level O, and the input beat that leaves
exactly that list to be delivered. -/
def Obligations.RunLoadsTheByteAndFlipsThePolarity : Prop :=
  (∀ n : Byte, decode (.decIn (dataWord n)) = .decRun n) ∧
  (∀ (n : Byte) (pol : Polarity),
    decOp (.decRun n) pol = (pol.flip, List.replicate n.toNat (.data pol.level))) ∧
  ∀ (n : Byte) (s t : State), s.decRem = 0 → s.decPendEof = false →
    t = { s with decRunPol := s.decPol, decRem := n, decPol := s.decPol.flip } →
    exec (.decRun n) s = .next t ∧ t.decPending = List.replicate n.toNat (.data s.decPol.level)

/-- R162: `DEC.EOF`, for every value of the ignored data bits: its output list at Level O, and the input beat
that leaves exactly that list to be delivered. -/
def Obligations.DecEofMakesTheMarkerPending : Prop :=
  (∀ d : Byte, decode (.decIn (eofWord d)) = .decEof d) ∧
  (∀ (d : Byte) (pol : Polarity), decOp (.decEof d) pol = (.dark, [.eof])) ∧
  ∀ (d : Byte) (s t : State), s.decRem = 0 → s.decPendEof = false →
    t = { s with decPendEof := true, decPol := .dark } →
    exec (.decEof d) s = .next t ∧ t.decPending = [.eof]

/-- R163: `DEC.RESET`. -/
def Obligations.DecResetReturnsToTheInitialState : Prop :=
  decode .decRst = .decReset ∧
  ∀ s : State,
    exec .decReset s
      = .next { s with decPol := .dark, decRunPol := .dark, decRem := 0, decPendEof := false }

/-- R141: `FRM.ENC` gives `frame(L)`, the function with these three equations, and changes no register. That
the value is kept in the field `frm` is the model's choice (log entry 5). -/
def Obligations.FrameOperationGivesTheFraming : Prop :=
  (∀ (len : Nat) (s : State), exec (.frmEnc len) s = .next { s with frm := .bytes (frame len) }) ∧
  frame 0 = [0] ∧
  (∀ len, 1 ≤ len → len ≤ 255 → frame len = [BitVec.ofNat 8 len]) ∧
  (∀ len, 255 < len → frame len = [255, 0] ++ frame (len - 255))

/-- R143: `FRM.DEC` gives the sum of the bytes where they are the framing of that sum, and is refused
elsewhere. That the value is kept in the field `frm` is the model's choice (log entry 5). -/
def Obligations.UnframeOperationGivesTheLengthOrIsRefused : Prop :=
  ∀ (bs : List Byte) (s : State),
    (frame (byteSum bs) = bs → exec (.frmDec bs) s = .next { s with frm := .length (byteSum bs) }) ∧
    (frame (byteSum bs) ≠ bs → exec (.frmDec bs) s = .refused .notAFraming)

/-- R51, R118, R164, R206: an operation that a symbol selects is not performed while its block cannot consume
a symbol. That it then leaves the state is the model's choice (log entry 6). -/
def Obligations.ABlockThatIsNotReadyPerformsNoOperation : Prop :=
  ∀ s : State,
    (s.encPend ≠ [] ∨ s.enc.err = true →
      exec .encPixd s = .next s ∧ exec .encPixl s = .next s ∧
      (∀ b, exec (.encPixbad b) s = .next s) ∧ (∀ d, exec (.encEof d) s = .next s)) ∧
    (s.decRem ≠ 0 ∨ s.decPendEof = true →
      (∀ n, exec (.decRun n) s = .next s) ∧ (∀ d, exec (.decEof d) s = .next s))

/-- R23, over every operation: only `ENC.PIXBAD` sets `ENC.err`, and only `ENC.RESET` clears it. -/
def Obligations.OnlyPixbadSetsAndOnlyResetClearsTheFaultFlag : Prop :=
  ∀ (i : Instr) (s t : State), exec i s = .next t →
    (s.enc.err = false → t.enc.err = true → ∃ b, i = .encPixbad b) ∧
    (s.enc.err = true → t.enc.err = false → i = .encReset)

/-- R59 (d), R121, over every operation: an operation of ENC changes nothing of DEC, one of DEC nothing of ENC,
one of FRM no register at all, and none of them a stream. -/
def Obligations.OperationsKeepToTheirOwnBlock : Prop :=
  ∀ (i : Instr) (s t : State), exec i s = .next t →
    (t.encIn = s.encIn ∧ t.encOut = s.encOut ∧ t.decIn = s.decIn ∧ t.decOut = s.decOut) ∧
    ((∃ n, i = .decRun n) ∨ (∃ d, i = .decEof d) ∨ i = .decReset ∨
      (t.decPol = s.decPol ∧ t.decRunPol = s.decRunPol ∧ t.decRem = s.decRem ∧ t.decPendEof = s.decPendEof)) ∧
    (i = .encPixd ∨ i = .encPixl ∨ (∃ b, i = .encPixbad b) ∨ (∃ d, i = .encEof d) ∨ i = .encReset ∨
      (t.enc = s.enc ∧ t.encPend = s.encPend))

/-! ### The step -/

/-- R51: the signals the hardware drives, from its registers and its reset signals. -/
def Obligations.PortSignalsFollowTheRegisters : Prop :=
  ∀ (s : State) (rst : Bool),
    (encInReady rst s = true ↔ s.encPend = [] ∧ s.enc.err = false ∧ rst = false) ∧
    (encOutValid rst s = true ↔ s.encPend ≠ [] ∧ rst = false) ∧
    (∀ y ys, s.encPend = y :: ys → rst = false → encOutSym rst s = some y.bits) ∧
    (decInReady rst s = true ↔ s.decRem = 0 ∧ s.decPendEof = false ∧ rst = false) ∧
    (decOutValid rst s = true ↔ (s.decRem ≠ 0 ∨ s.decPendEof = true) ∧ rst = false) ∧
    (s.decRem ≠ 0 → rst = false → decOutSym rst s = some (dataWord s.decRunPol.level)) ∧
    (s.decRem = 0 → s.decPendEof = true → rst = false → decOutSym rst s = some 0x100) ∧
    encErrWire s = s.enc.err

/-- R51: a block never has an input beat and an output beat at the same clock edge, and none at all while it is
reset. -/
def Obligations.NoBlockHasTwoBeatsAtOneEdge : Prop :=
  ∀ (e : Edge) (s : State),
    ¬((encInBeat e s).isSome = true ∧ encOutBeat e s = true) ∧
    ¬((decInBeat e s).isSome = true ∧ decOutBeat e s = true) ∧
    (e.encRst = true → encInBeat e s = none ∧ encOutBeat e s = false) ∧
    (e.decRst = true → decInBeat e s = none ∧ decOutBeat e s = false)

/-- R118: where the HOST offers a symbol that ENC can consume, the step consumes it and runs the operation it
decodes to, with DEC's own part of the edge after it (nothing, where DEC has no beat): the operation's registers,
its output list in `ENC.pend`, and nothing on `enc_out` yet. -/
def Obligations.StepRunsTheOperationDecodedOnEncIn : Prop :=
  ∀ (s : State) (e : Edge) (es : List Edge) (w : PortWord) (ws : List PortWord),
    s.schedule = e :: es → brokenOffer e s = none → e.encRst = false → e.encInValid = true →
    s.encIn = w :: ws → s.encPend = [] → s.enc.err = false →
    step s = andThen
      (exec (decode (.encIn w))
        { s with
          schedule := es, encIn := ws
          encHeld := none, decHeld := heldAfter (decOffer e s) (decInBeat e s) })
      (decAct (decAction e s)) ∧
    (decAction e s = .wait →
      step s = exec (decode (.encIn w))
        { s with schedule := es, encIn := ws, encHeld := none, decHeld := heldAfter (decOffer e s) none }) ∧
    ∃ t, step s = .next t ∧ t.enc = (encOp (decode (.encIn w)) s.enc).1 ∧
      t.encPend = (encOp (decode (.encIn w)) s.enc).2 ∧ t.encIn = ws ∧ t.encOut = s.encOut

/-- R164: the same for DEC, fed by the HOST, with what becomes of its registers for a byte and for the marker.
ENC's own part of the edge is done too (nothing, where ENC has no beat). -/
def Obligations.StepRunsTheOperationDecodedOnDecIn : Prop :=
  ∀ (s : State) (e : Edge) (es : List Edge) (w : PortWord) (ws : List PortWord),
    s.schedule = e :: es → brokenOffer e s = none → e.decRst = false → e.decInValid = true →
    s.linked = false → s.decIn = w :: ws → s.decRem = 0 → s.decPendEof = false →
    step s = andThen
      (encAct (encAction e s)
        { s with
          schedule := es, decIn := ws
          encHeld := heldAfter (encOffer e s) (encInBeat e s), decHeld := none })
      (exec (decode (.decIn w))) ∧
    (encAction e s = .wait →
      step s = exec (decode (.decIn w))
        { s with schedule := es, decIn := ws, decHeld := none, encHeld := heldAfter (encOffer e s) none }) ∧
    ∃ t, step s = .next t ∧ t.decIn = ws ∧ t.decOut = s.decOut ∧
      (∀ n, w = dataWord n →
        t.decRunPol = s.decPol ∧ t.decRem = n ∧ t.decPol = s.decPol.flip ∧ t.decPendEof = false) ∧
      (∀ d, w = eofWord d →
        t.decPendEof = true ∧ t.decPol = .dark ∧ t.decRem = 0 ∧ t.decRunPol = s.decRunPol)

/-- R51, R59 (d): two input beats at one edge, one in each block, run both operations. -/
def Obligations.StepRunsBothBlocksAtOneEdge : Prop :=
  ∀ (s : State) (e : Edge) (es : List Edge) (v w : PortWord) (vs ws : List PortWord),
    s.schedule = e :: es → brokenOffer e s = none →
    e.encRst = false → e.encInValid = true → s.encIn = v :: vs → s.encPend = [] → s.enc.err = false →
    e.decRst = false → e.decInValid = true → s.linked = false → s.decIn = w :: ws → s.decRem = 0 →
    s.decPendEof = false →
    step s = andThen
      (exec (decode (.encIn v))
        { s with schedule := es, encIn := vs, decIn := ws, encHeld := none, decHeld := none })
      (exec (decode (.decIn w)))

/-- R64: where the HOST has wired `enc_out` to `dec_in`, a symbol ENC has pending crosses the wire at the first
edge DEC can consume one: ENC delivers it, and DEC runs the operation it decodes to. While DEC cannot, ENC
waits. -/
def Obligations.StepCarriesASymbolOverTheWire : Prop :=
  ∀ (s : State) (e : Edge) (es : List Edge) (y : PortSymbol) (ys : List PortSymbol),
    s.schedule = e :: es → brokenOffer e s = none → e.encRst = false → e.decRst = false →
    s.linked = true → s.encPend = y :: ys →
    (s.decRem = 0 → s.decPendEof = false →
      step s = exec (decode (.decIn y.bits))
        { s with
          schedule := es, encPend := ys, encOut := s.encOut ++ [y.bits]
          encHeld := heldAfter (encOffer e s) none, decHeld := none }) ∧
    (s.decRem ≠ 0 ∨ s.decPendEof = true →
      ∃ t, step s = .next t ∧ t.enc = s.enc ∧ t.encPend = s.encPend ∧ t.encIn = s.encIn ∧ t.encOut = s.encOut)

/-- R119: an output beat of ENC delivers the head of `ENC.pend` and changes no other register of ENC; where the
other side does not accept, ENC waits with its state unchanged. It accepts by `enc_out_ready`, which is the
HOST's, or `dec_in_ready` where it has wired the two blocks. DEC's own part of the edge is done too. -/
def Obligations.EncOutputBeatDeliversTheHead : Prop :=
  ∀ (s : State) (e : Edge) (es : List Edge) (y : PortSymbol) (ys : List PortSymbol),
    s.schedule = e :: es → brokenOffer e s = none → e.encRst = false → s.encPend = y :: ys →
    encAccept e s = (if s.linked then decInReady e.decRst s else e.encOutReady) ∧
    (encAccept e s = true →
      step s = decAct (decAction e s) { s with
        schedule := es, encPend := ys, encOut := s.encOut ++ [y.bits]
        encHeld := heldAfter (encOffer e s) none, decHeld := heldAfter (decOffer e s) (decInBeat e s) }) ∧
    (encAccept e s = false →
      step s = decAct (decAction e s) { s with
        schedule := es
        encHeld := heldAfter (encOffer e s) none, decHeld := heldAfter (decOffer e s) (decInBeat e s) }) ∧
    encInBeat e s = none ∧
    ∃ t, step s = .next t ∧ t.enc = s.enc ∧ t.encIn = s.encIn ∧
      (encAccept e s = true → t.encPend = ys ∧ t.encOut = s.encOut ++ [y.bits]) ∧
      (encAccept e s = false → t.encPend = s.encPend ∧ t.encOut = s.encOut)

/-- R165: an output beat of DEC delivers one pixel of the run, or the marker; where the HOST does not accept, DEC
waits with its state unchanged. ENC's own part of the edge is done too. -/
def Obligations.DecOutputBeatDeliversAPixelOrTheMarker : Prop :=
  ∀ (s : State) (e : Edge) (es : List Edge),
    s.schedule = e :: es → brokenOffer e s = none → e.decRst = false →
    (e.decOutReady = true → s.decRem ≠ 0 →
      step s = encAct (encAction e s) { s with
        schedule := es, decRem := s.decRem - 1, decOut := s.decOut ++ [dataWord s.decRunPol.level]
        encHeld := heldAfter (encOffer e s) (encInBeat e s), decHeld := heldAfter (decOffer e s) none }) ∧
    (e.decOutReady = true → s.decRem = 0 → s.decPendEof = true →
      step s = encAct (encAction e s) { s with
        schedule := es, decPendEof := false, decOut := s.decOut ++ [0x100]
        encHeld := heldAfter (encOffer e s) (encInBeat e s), decHeld := heldAfter (decOffer e s) none }) ∧
    (e.decOutReady = false → (s.decRem ≠ 0 ∨ s.decPendEof = true) →
      step s = encAct (encAction e s) { s with
        schedule := es
        encHeld := heldAfter (encOffer e s) (encInBeat e s), decHeld := heldAfter (decOffer e s) none }) ∧
    (s.decRem ≠ 0 ∨ s.decPendEof = true → decInBeat e s = none ∧
      ∃ t, step s = .next t ∧ t.decPol = s.decPol ∧ t.decRunPol = s.decRunPol ∧ t.decIn = s.decIn)

/-- R205 and R230: at an edge with its reset signal at 1 a block is put in its reset state, whatever is offered,
and no symbol crosses its ports. -/
def Obligations.ResetWinsOverEverythingAtItsEdge : Prop :=
  ∀ (s : State) (e : Edge) (es : List Edge),
    s.schedule = e :: es → brokenOffer e s = none →
    ∃ t, step s = .next t ∧
      (e.encRst = true →
        t.enc = EncRegs.reset ∧ t.encPend = [] ∧ t.encIn = s.encIn ∧ t.encOut = s.encOut) ∧
      (e.decRst = true →
        t.decPol = .dark ∧ t.decRunPol = .dark ∧ t.decRem = 0 ∧ t.decPendEof = false ∧
        t.decIn = s.decIn ∧ t.decOut = s.decOut)

/-- R231: the values reset leaves and what the ports then show. -/
def Obligations.StateAfterReset : Prop :=
  State.reset.enc = { pol := .dark, cnt := 0, err := false } ∧ State.reset.encPend = [] ∧
  State.reset.decPol = .dark ∧ State.reset.decRunPol = .dark ∧ State.reset.decRem = 0 ∧
  State.reset.decPendEof = false ∧
  encInReady false State.reset = true ∧ encOutValid false State.reset = false ∧
  encErrWire State.reset = false ∧
  decInReady false State.reset = true ∧ decOutValid false State.reset = false

/-- R242, U10: an edge at which a symbol that stands offered is dropped or changed has no meaning. The state's
memory of what stands offered is the model's (log entry 2). -/
def Obligations.ABrokenOfferIsRefused : Prop :=
  ∀ (s : State) (e : Edge) (es : List Edge) (w : PortWord), s.schedule = e :: es →
    (s.encHeld = some w → encOffer e s ≠ some w → step s = .refused (.portDiscipline .encIn)) ∧
    (s.linked = false → s.decHeld = some w → decOffer e s ≠ some w →
      ∃ p, step s = .refused (.portDiscipline p))

/-- R203, R166 and R242: no step ends in a fault, and a step is refused only where the HOST breaks the port
discipline. That the codec's one fault, `InvalidPixelValue` (R201, R206), is a next state and so no end of a step is
the model's reading (log entry 7). With no edge planned the state stays (the model's choice, log entry 11). -/
def Obligations.StepStopsOnlyOnABrokenOffer : Prop :=
  ∀ s : State,
    (s.schedule = [] → step s = .next s) ∧
    (∀ e es, s.schedule = e :: es → brokenOffer e s = none → ∃ t, step s = .next t ∧ t.schedule = es) ∧
    (∀ r, step s ≠ .fault r) ∧
    (∀ r, step s = .refused r →
      ∃ e es p, s.schedule = e :: es ∧ brokenOffer e s = some p ∧ r = .portDiscipline p)

/-- R59 (d), R51: the two blocks' parts of an edge can be done in either order. -/
def Obligations.TheOrderOfTheBlocksAtAnEdgeDoesNotMatter : Prop :=
  ∀ (a b : BlockAction) (s : State), andThen (encAct a s) (decAct b) = andThen (decAct b s) (encAct a)

/-- R59 (d): what DEC does at a step depends on nothing of ENC, and what ENC does on nothing of DEC, where the
HOST has not wired them together. -/
def Obligations.BlocksDoNotInterfere : Prop :=
  ∀ (s₁ s₂ t₁ t₂ : State) (e₁ e₂ : Edge) (es₁ es₂ : List Edge),
    s₁.schedule = e₁ :: es₁ → s₂.schedule = e₂ :: es₂ → s₁.linked = false → s₂.linked = false →
    step s₁ = .next t₁ → step s₂ = .next t₂ →
    (e₁.decRst = e₂.decRst → e₁.decInValid = e₂.decInValid → e₁.decOutReady = e₂.decOutReady →
      s₁.decPol = s₂.decPol → s₁.decRunPol = s₂.decRunPol → s₁.decRem = s₂.decRem →
      s₁.decPendEof = s₂.decPendEof → s₁.decIn = s₂.decIn → s₁.decOut = s₂.decOut →
      t₁.decPol = t₂.decPol ∧ t₁.decRunPol = t₂.decRunPol ∧ t₁.decRem = t₂.decRem ∧
      t₁.decPendEof = t₂.decPendEof ∧ t₁.decIn = t₂.decIn ∧ t₁.decOut = t₂.decOut) ∧
    (e₁.encRst = e₂.encRst → e₁.encInValid = e₂.encInValid → e₁.encOutReady = e₂.encOutReady →
      s₁.enc = s₂.enc → s₁.encPend = s₂.encPend → s₁.encIn = s₂.encIn → s₁.encOut = s₂.encOut →
      t₁.enc = t₂.enc ∧ t₁.encPend = t₂.encPend ∧ t₁.encIn = t₂.encIn ∧ t₁.encOut = t₂.encOut)

/-! ### Invariants and the fault state -/

/-- R36: the invariants hold at reset. -/
def Obligations.InvariantsHoldAtReset : Prop := State.reset.Inv

/-- R36, R80, R123 and R167: every step keeps the invariants, from every state that has them. -/
def Obligations.EveryStepKeepsTheInvariants : Prop :=
  ∀ s t : State, s.Inv → step s = .next t → t.Inv

/-- R206, R207: in the fault state the ports are shut and `enc_err` is 1, and no step but a reset of ENC
changes its registers or moves a symbol on its ports. -/
def Obligations.OnlyResetLeavesTheFaultState : Prop :=
  ∀ s : State, s.Inv → s.enc.err = true →
    (∀ rst, encInReady rst s = false ∧ encOutValid rst s = false) ∧ encErrWire s = true ∧
    ∀ (e : Edge) (es : List Edge) (t : State), s.schedule = e :: es → step s = .next t →
      (e.encRst = false → t.enc = s.enc ∧ t.encPend = [] ∧ t.encIn = s.encIn ∧ t.encOut = s.encOut) ∧
      (e.encRst = true → t.enc = EncRegs.reset)

/-! ### The framer's laws -/

/-- R142: the closed form of `frame`. -/
def Obligations.FrameHasTheClosedForm : Prop :=
  frame 0 = [0] ∧
  ∀ len, 1 ≤ len →
    frame len = contPairs ((len - 1) / 255) ++ [BitVec.ofNat 8 (len - 255 * ((len - 1) / 255))] ∧
    1 ≤ len - 255 * ((len - 1) / 255) ∧ len - 255 * ((len - 1) / 255) ≤ 255 ∧
    (len % 255 ≠ 0 → (len - 1) / 255 = len / 255 ∧ len - 255 * ((len - 1) / 255) = len % 255) ∧
    (len % 255 = 0 → (len - 1) / 255 = len / 255 - 1 ∧ len - 255 * ((len - 1) / 255) = 255)

/-- R144, R84: `unframe` undoes `frame`, a framing's bytes sum to its length, and no length shares its framing
with another. -/
def Obligations.UnframeUndoesFrame : Prop :=
  (∀ len, unframe (frame len) = some len) ∧ (∀ len, byteSum (frame len) = len) ∧
  (∀ k len, frame k = frame len → k = len) ∧
  (∀ bs len, unframe bs = some len → frame len = bs)

/-- R145: the number of bytes in a framing. -/
def Obligations.FrameByteCount : Prop :=
  (frame 0).length = 1 ∧
  ∀ len, 1 ≤ len →
    (frame len).length = 2 * ((len - 1) / 255) + 1 ∧
    (len % 255 ≠ 0 → (frame len).length = 2 * (len / 255) + 1) ∧
    (len % 255 = 0 → (frame len).length = 2 * (len / 255) - 1) ∧
    (frame len).length % 2 = 1

/-! ### The codec's laws (Level F) -/

/-- R180: the round trip, of the functions, and of the blocks with every symbol carried from `enc_out` to `dec_in`
in order: what DEC emits is what ENC was offered, and both end in the reset state, so the law holds frame after
frame. -/
def Obligations.DecodeUndoesEncode : Prop :=
  ∀ ps : List Byte, validPixels ps = true →
    (∃ bs, encodeFrame ps = .bytes bs ∧ decodeFrame bs = ps) ∧
    (encRun EncRegs.reset (frameWords ps)).regs = EncRegs.reset ∧
    (encRun EncRegs.reset (frameWords ps)).rest = [] ∧
    decRun .dark ((encRun EncRegs.reset (frameWords ps)).out.map PortSymbol.bits)
      = (.dark, ps.map .data ++ [.eof])

/-- R110, R115: `encode` is an error exactly on a stream with an invalid pixel. -/
def Obligations.EncodeFailsExactlyOnAnInvalidPixel : Prop :=
  ∀ ps : List Byte, encodeFrame ps = .invalidPixelValue ↔ ∃ p ∈ ps, p ≠ 0 ∧ p ≠ 255

/-- R181, R66: the bytes of a frame sum to the number of its pixels, and DEC's function gives as many pixels as
its bytes sum to, for every byte list. -/
def Obligations.BytesSumToThePixelCount : Prop :=
  (∀ ps bs, encodeFrame ps = .bytes bs → byteSum bs = ps.length) ∧
  (∀ bs : List Byte, (decodeFrame bs).length = byteSum bs)

/-- R120, R123: a frame has at least one byte and at most one more than its pixels, and its last byte is 0 only
when it has no pixel. -/
def Obligations.EncodedFrameSizeAndLastByte : Prop :=
  ∀ ps bs, encodeFrame ps = .bytes bs →
    1 ≤ bs.length ∧ bs.length ≤ ps.length + 1 ∧ (bs.getLast? = some 0 ↔ ps = [])

/-- R184: the encoding is the framings of the run lengths in order; run `i` is dark for even `i` and light for odd
`i`, so no two adjacent runs share a polarity; and only the leading dark run can have length 0. -/
def Obligations.EncodingIsTheFramedRunLengths : Prop :=
  ∀ ps : List Byte, validPixels ps = true →
    encodeFrame ps = .bytes ((runLengths ps).flatMap frame) ∧
    ((runLengths ps).mapIdx fun i n => List.replicate n (Polarity.atPosition i).level).flatten = ps ∧
    ∀ n ∈ (runLengths ps).tail, n ≠ 0

/-- R86, R144: the reading rule gives the run lengths back from an encoded frame. -/
def Obligations.RunsReadsTheRunLengthsBack : Prop :=
  ∀ ps bs, encodeFrame ps = .bytes bs → runs bs = some (runLengths ps)

/-- R85: the three conditions, as the model's check runs them, and their meaning: a byte sequence is canonical
exactly when it is the encoding of some pixel stream. -/
def Obligations.CanonicalMeansEncodedFromPixels : Prop :=
  ∀ bs : List Byte, (isCanonical bs = true ↔ Canonical bs) ∧
    (Canonical bs ↔ ∃ ps, validPixels ps = true ∧ encodeFrame ps = .bytes bs)

/-- R182: re-encoding gives the bytes back for every canonical list; for every list whatever it gives a
canonical list that decodes to the same pixels, so it does not hold for arbitrary lists. -/
def Obligations.ReencodingGivesTheCanonicalForm : Prop :=
  (∀ bs : List Byte, Canonical bs → encodeFrame (decodeFrame bs) = .bytes bs) ∧
  (∀ bs : List Byte, ∃ cs, encodeFrame (decodeFrame bs) = .bytes cs ∧ Canonical cs ∧
    decodeFrame cs = decodeFrame bs) ∧
  encodeFrame (decodeFrame [0, 0, 5]) = .bytes [5] ∧ encodeFrame (decodeFrame [3, 0, 2]) = .bytes [5]

/-- R186 (b), R236: decoding a concatenation: the second part comes out inverted when the first has an odd number
of bytes. And (a): `encode` is no homomorphism. -/
def Obligations.DecodingAConcatenationInvertsAfterAnOddPart : Prop :=
  (∀ b₁ b₂ : List Byte,
    (b₁.length % 2 = 0 → decodeFrame (b₁ ++ b₂) = decodeFrame b₁ ++ decodeFrame b₂) ∧
    (b₁.length % 2 = 1 → decodeFrame (b₁ ++ b₂) = decodeFrame b₁ ++ invertPixels (decodeFrame b₂))) ∧
  encodeFrame ([0] ++ [0]) = .bytes [2] ∧ encodeFrame [0] = .bytes [1] ∧ decodeFrame ([1] ++ [1]) = [0, 255]

/-! ### The levels agree -/

/-- R122: `n` more pixels of a run's own polarity, after its first, leave the count and the emitted pairs that
`frame` needs. -/
def Obligations.RunCountingSpillsAsFrameDoes : Prop :=
  ∀ (p : Polarity) (n : Nat),
    encRun { pol := p, cnt := 1, err := false } (List.replicate n (dataWord p.level))
      = { regs := { pol := p, cnt := BitVec.ofNat 8 (n + 1 - 255 * (n / 255)), err := false }
          out := (contPairs (n / 255)).map .data
          rest := [] }

/-- R187, the half of ENC: a valid frame and its marker, from the reset state. -/
def Obligations.EncoderEmitsTheEncodingOfAValidFrame : Prop :=
  ∀ (ps : List Byte) (d : Byte), validPixels ps = true →
    ∃ bs, encodeFrame ps = .bytes bs ∧
      encRun EncRegs.reset (dataWords ps ++ [eofWord d])
        = { regs := EncRegs.reset, out := bs.map .data ++ [.eof], rest := [] }

/-- R187 and R233: before the marker, or when an invalid pixel follows, what has been emitted is the encoding of
the valid part without its last byte; after the invalid pixel nothing is consumed. -/
def Obligations.EncoderWithholdsTheLastByteAndStopsAtAnInvalidPixel : Prop :=
  ∀ ps : List Byte, validPixels ps = true → ∃ bs, encodeFrame ps = .bytes bs ∧
    (encRun EncRegs.reset (dataWords ps)).out = bs.dropLast.map .data ∧
    bs.getLast? = some (encRun EncRegs.reset (dataWords ps)).regs.cnt ∧
    ∀ (b : Byte) (tail : List PortWord), b ≠ 0 → b ≠ 255 →
      (encRun EncRegs.reset (dataWords ps ++ dataWord b :: tail)).out = bs.dropLast.map .data ∧
      (encRun EncRegs.reset (dataWords ps ++ dataWord b :: tail)).rest = tail ∧
      (encRun EncRegs.reset (dataWords ps ++ dataWord b :: tail)).regs.err = true

/-- R187, the half of DEC: any byte list and its marker, from the reset state. -/
def Obligations.DecoderEmitsTheDecodingOfAFrame : Prop :=
  ∀ (bs : List Byte) (d : Byte),
    decRun .dark (dataWords bs ++ [eofWord d]) = (.dark, (decodeFrame bs).map .data ++ [.eof])

/-- R169: after a reset or a marker and `j` further bytes, whatever their values, the polarity is the parity of
`j`. -/
def Obligations.PolarityIsPositionParity : Prop :=
  (∀ pol : Polarity, (decOp .decReset pol).1 = .dark ∧ ∀ d, (decOp (.decEof d) pol).1 = .dark) ∧
  (∀ bs : List Byte, (decRun .dark (dataWords bs)).1 = Polarity.atPosition bs.length) ∧
  (∀ j : Nat, (Polarity.atPosition j).bit = BitVec.ofNat 1 (j % 2))

/-- R39: the register is the source's unbounded counter less 255 for every pair emitted, along every run from
reset; and R36 (b): it is 0 exactly when no pixel of the frame has been consumed. -/
def Obligations.CountRegisterFollowsTheUnboundedCounter : Prop :=
  ∀ ws : List PortWord,
    (encGhostRun EncRegs.reset EncGhost.reset ws).agrees (encRun EncRegs.reset ws).regs ∧
    ((encRun EncRegs.reset ws).regs.cnt = 0 ↔ (encGhostRun EncRegs.reset EncGhost.reset ws).ltrue = 0) ∧
    (encGhostRun EncRegs.reset EncGhost.reset ws).ipos + (encRun EncRegs.reset ws).rest.length = ws.length ∧
    (encGhostRun EncRegs.reset EncGhost.reset ws).opos = (encRun EncRegs.reset ws).out.length

/-- R124, R211, R240: bytes with no marker after them commit nothing; what a marker has committed stays committed;
and a fault or a reset makes void what was received since the last marker, so it never counts, whatever frames
follow. Over every run of a block from its reset state, with resets anywhere, ENC faulting or not, ENC commits
nothing but encodings of valid frames offered whole on `enc_in`, and DEC nothing but decodings of frames offered
whole on `dec_in`. That the HOST's account stands outside the state is the model's choice (log entry 18). -/
def Obligations.OnlyTheMarkerCommitsAFrame : Prop :=
  (∀ ps : List Byte,
    committed ((encRun EncRegs.reset (dataWords ps)).out.map fun y => .word y.bits) = []) ∧
  (∀ bs cs : List Byte, committed ((frameWords bs ++ dataWords cs).map .word) = frameWords bs) ∧
  (∀ (es fs : List Seen) (bs : List Byte),
    committed (es ++ (dataWords bs).map .word ++ .void :: fs) = committed es ++ committed fs) ∧
  (∀ (n : Nat) (s : State), s.enc = EncRegs.reset → s.encPend = [] →
    ∃ fs : List (List Byte), encCommitted n s = fs.flatMap frameWords ∧
      ∀ bs ∈ fs, ∃ (ps : List Byte) (d : Byte), validPixels ps = true ∧ encodeFrame ps = .bytes bs ∧
        dataWords ps ++ [eofWord d] <:+: s.encIn) ∧
  (∀ (n : Nat) (s : State), s.decPol = .dark → s.decRem = 0 → s.decPendEof = false → s.linked = false →
    ∃ fs : List (List Byte), decCommitted n s = fs.flatMap frameWords ∧
      ∀ ps ∈ fs, ∃ (bs : List Byte) (d : Byte), decodeFrame bs = ps ∧
        dataWords bs ++ [eofWord d] <:+: s.decIn)

/-- R188 for ENC: whatever the schedule, the symbols delivered and those pending are together the Level O output
for the symbols consumed, provided ENC is not reset. -/
def Obligations.EncoderDeliversTheLevelOOutputUnderEverySchedule : Prop :=
  ∀ (n : Nat) (s t : State), (∀ e ∈ s.schedule.take n, e.encRst = false) → runSteps n s = .next t →
    ∃ ws, s.encIn = ws ++ t.encIn ∧ (encRun s.enc ws).rest = [] ∧ (encRun s.enc ws).regs = t.enc ∧
      t.encProduced = s.encProduced ++ (encRun s.enc ws).out.map PortSymbol.bits

/-- R188 for DEC, fed from its own stream. -/
def Obligations.DecoderDeliversTheLevelOOutputUnderEverySchedule : Prop :=
  ∀ (n : Nat) (s t : State), s.linked = false → (∀ e ∈ s.schedule.take n, e.decRst = false) →
    runSteps n s = .next t →
    ∃ ws, s.decIn = ws ++ t.decIn ∧ (decRun s.decPol ws).1 = t.decPol ∧
      t.decProduced = s.decProduced ++ (decRun s.decPol ws).2.map PortSymbol.bits

/-- R64: ENC wired to DEC gives back the frames it was offered, markers included, whatever the data bits of the
markers offered: at every moment a part of them from the start, and the whole when nothing is left to do. -/
def Obligations.WiredBlocksGiveBackTheFrames : Prop :=
  ∀ (fs : List (List Byte × Byte)) (plan : List Edge) (n : Nat) (t : State),
    (∀ f ∈ fs, validPixels f.1 = true) → (∀ e ∈ plan, e.encRst = false ∧ e.decRst = false) →
    runSteps n
      { State.reset with
        encIn := fs.flatMap fun f => dataWords f.1 ++ [eofWord f.2], linked := true, schedule := plan }
      = .next t →
    (t.decOut <+: fs.flatMap fun f => frameWords f.1) ∧
    (t.finished → t.decOut = fs.flatMap fun f => frameWords f.1)

/-- R188, R213, R239, R246: a HOST that offers every symbol and accepts every symbol gets ENC to the end of its
input, or to the fault state, within three edges for each symbol and one for each symbol pending. -/
def Obligations.AWillingHostDrainsTheEncoder : Prop :=
  ∀ (s : State) (n : Nat), s.linked = false → s.encHeld = none → s.decHeld = none →
    s.schedule = List.replicate n
      { encRst := false, decRst := false, encInValid := true, encOutReady := true, decInValid := false,
        decOutReady := false } →
    3 * s.encIn.length + s.encPend.length ≤ n →
    ∃ t, runSteps n s = .next t ∧ (t.enc.err = true ∨ (t.encIn = [] ∧ t.encPend = []))

/-- R188, R213, R239, R246: the same for DEC, which never stops: one edge for each symbol consumed and one for
each delivered. -/
def Obligations.AWillingHostDrainsTheDecoder : Prop :=
  ∀ (s : State) (n : Nat), s.linked = false → s.encHeld = none → s.decHeld = none →
    s.schedule = List.replicate n
      { encRst := false, decRst := false, encInValid := false, encOutReady := false, decInValid := true,
        decOutReady := true } →
    256 * s.decIn.length + s.decPending.length ≤ n →
    ∃ t, runSteps n s = .next t ∧ t.decIn = [] ∧ t.decPending = []
end

