-- ==== Sys2Proof/Laws/Decode.lean ====
section
/-! SUPPORT. What the decoder reads from a port word, said once: the fields of the words `dataWord` and
`eofWord` make, and the operation each kind of word selects. Later proofs cite these and unfold no mask. -/

namespace Sys2Proof

@[simp] theorem symData_dataWord (b : Byte) : symData (dataWord b) = b := by simp [symData, dataWord]

@[simp] theorem symEof_dataWord (b : Byte) : symEof (dataWord b) = false := by simp [symEof, dataWord]

@[simp] theorem symData_eofWord (d : Byte) : symData (eofWord d) = d := by simp [symData, eofWord]

@[simp] theorem symEof_eofWord (d : Byte) : symEof (eofWord d) = true := by simp [symEof, eofWord]

/-- The word `0x100` has no bit below bit 8. -/
theorem eofMask_low {i : Nat} (h : i < 8) : (256#9)[i] = false := by
  rw [← BitVec.getLsbD_eq_getElem]
  interval_cases i <;> decide

/-- A word with `eof` = 0 is the word of its data byte. -/
theorem dataWord_symData {w : PortWord} (h : symEof w = false) : dataWord (symData w) = w := by
  unfold symEof at h
  unfold dataWord symData
  ext i hi
  by_cases h8 : i < 8
  · simp [BitVec.getElem_setWidth, h8, BitVec.getLsbD_eq_getElem hi]
  · obtain rfl : i = 8 := by omega
    simpa using h.symm

/-- A word with `eof` = 1 is the marker with its own data bits. -/
theorem eofWord_symData {w : PortWord} (h : symEof w = true) : eofWord (symData w) = w := by
  unfold symEof at h
  unfold eofWord symData
  ext i hi
  by_cases h8 : i < 8
  · simp [BitVec.getElem_or, BitVec.getElem_setWidth, h8, BitVec.getLsbD_eq_getElem hi, eofMask_low h8]
  · obtain rfl : i = 8 := by omega
    simpa using h.symm

/-- Every word is a data word or a marker. -/
theorem word_cases (w : PortWord) : (∃ b, w = dataWord b) ∨ ∃ d, w = eofWord d := by
  cases h : symEof w
  · exact .inl ⟨symData w, (dataWord_symData h).symm⟩
  · exact .inr ⟨symData w, (eofWord_symData h).symm⟩

theorem and_allOnes9 (w : PortWord) : w &&& 0x1FF = w := by
  simpa using BitVec.and_allOnes (x := w)

theorem dataWord_and_eofMask (b : Byte) : dataWord b &&& 0x100 = 0 := by
  unfold dataWord
  ext i hi
  by_cases h8 : i = 8
  · subst h8; simp
  · simp [BitVec.getElem_and, eofMask_low (show i < 8 by omega)]

theorem eofWord_and_eofMask (d : Byte) : eofWord d &&& 0x100 = 0x100 := by
  unfold eofWord
  ext i hi
  by_cases h8 : i = 8
  · subst h8; simp
  · simp [eofMask_low (show i < 8 by omega)]

theorem eofWord_and_eofMask_ne (d : Byte) : eofWord d &&& 0x100 ≠ 0 := by
  rw [eofWord_and_eofMask]; decide

theorem dataWord_inj {a b : Byte} : dataWord a = dataWord b ↔ a = b :=
  ⟨fun h => by simpa using congrArg symData h, fun h => h ▸ rfl⟩

theorem dataWord_ne_eofWord (b d : Byte) : dataWord b ≠ eofWord d := fun h => by
  simpa using congrArg symEof h

/-- What a pixel word selects on `enc_in`. -/
theorem decodeEncIn_dataWord (b : Byte) :
    decodeEncIn (dataWord b) = if b = 0 then .encPixd else if b = 255 then .encPixl else .encPixbad b := by
  have h0 : (0x000 : PortWord) = dataWord 0 := rfl
  have h255 : (0x0FF : PortWord) = dataWord 255 := rfl
  unfold decodeEncIn
  rw [and_allOnes9, h0, h255, dataWord_and_eofMask]
  simp [dataWord_inj]
  rfl

/-- What a marker selects on `enc_in`, whatever its data bits. -/
@[simp] theorem decodeEncIn_eofWord (d : Byte) : decodeEncIn (eofWord d) = .encEof d := by
  have h0 : (0x000 : PortWord) = dataWord 0 := rfl
  have h255 : (0x0FF : PortWord) = dataWord 255 := rfl
  unfold decodeEncIn
  rw [and_allOnes9, if_neg, if_neg, if_neg (eofWord_and_eofMask_ne d)]
  · simp
  · rw [h255]; exact fun h => dataWord_ne_eofWord _ _ h.symm
  · rw [h0]; exact fun h => dataWord_ne_eofWord _ _ h.symm

/-- What a byte selects on `dec_in`. -/
@[simp] theorem decodeDecIn_dataWord (n : Byte) : decodeDecIn (dataWord n) = .decRun n := by
  unfold decodeDecIn
  rw [if_pos (dataWord_and_eofMask n)]
  simp

/-- What a marker selects on `dec_in`, whatever its data bits. -/
@[simp] theorem decodeDecIn_eofWord (d : Byte) : decodeDecIn (eofWord d) = .decEof d := by
  unfold decodeDecIn
  rw [if_neg (eofWord_and_eofMask_ne d)]
  simp

/-- The word of a level of pixel selects the pixel operation of that level. -/
theorem decodeEncIn_level (p : Polarity) :
    decodeEncIn (dataWord p.level) = (match p with | .dark => .encPixd | .light => .encPixl) := by
  cases p <;> rfl

/-- A valid pixel is the level of one of the two polarities. -/
theorem validPixel_iff {b : Byte} : validPixel b = true ↔ ∃ p : Polarity, b = p.level := by
  constructor
  · intro h
    rcases (by simpa [validPixel] using h : b = 0 ∨ b = 255) with rfl | rfl
    · exact ⟨.dark, rfl⟩
    · exact ⟨.light, rfl⟩
  · rintro ⟨p, rfl⟩
    cases p <;> rfl

theorem Polarity.level_inj {p q : Polarity} : p.level = q.level ↔ p = q := by
  cases p <;> cases q <;> decide

@[simp] theorem Polarity.flip_flip (p : Polarity) : p.flip.flip = p := by cases p <;> rfl

theorem Polarity.flip_of_ne {p q : Polarity} (h : p ≠ q) : p.flip = q := by
  cases p <;> cases q <;> first | rfl | exact absurd rfl h

theorem bits_data (b : Byte) : (PortSymbol.data b).bits = dataWord b := rfl

theorem bits_eof : PortSymbol.eof.bits = eofWord 0 := rfl

end Sys2Proof
end

