-- ==== Sys2Proof/Laws/State.lean ====
section
/-! SUPPORT. One lemma for each field of `State` and each named update: what the field is afterwards. All are
true by `rfl`, so no later proof unfolds a record update. -/

namespace Sys2Proof.Machine

/-! ### `popEncIn` -/

@[simp] theorem State.popEncIn_enc (s : State) : s.popEncIn.enc = s.enc := rfl
@[simp] theorem State.popEncIn_encPend (s : State) : s.popEncIn.encPend = s.encPend := rfl
@[simp] theorem State.popEncIn_decPol (s : State) : s.popEncIn.decPol = s.decPol := rfl
@[simp] theorem State.popEncIn_decRunPol (s : State) : s.popEncIn.decRunPol = s.decRunPol := rfl
@[simp] theorem State.popEncIn_decRem (s : State) : s.popEncIn.decRem = s.decRem := rfl
@[simp] theorem State.popEncIn_decPendEof (s : State) : s.popEncIn.decPendEof = s.decPendEof := rfl
@[simp] theorem State.popEncIn_encIn (s : State) : s.popEncIn.encIn = s.encIn.tail := rfl
@[simp] theorem State.popEncIn_encOut (s : State) : s.popEncIn.encOut = s.encOut := rfl
@[simp] theorem State.popEncIn_decIn (s : State) : s.popEncIn.decIn = s.decIn := rfl
@[simp] theorem State.popEncIn_decOut (s : State) : s.popEncIn.decOut = s.decOut := rfl
@[simp] theorem State.popEncIn_encHeld (s : State) : s.popEncIn.encHeld = s.encHeld := rfl
@[simp] theorem State.popEncIn_decHeld (s : State) : s.popEncIn.decHeld = s.decHeld := rfl
@[simp] theorem State.popEncIn_linked (s : State) : s.popEncIn.linked = s.linked := rfl
@[simp] theorem State.popEncIn_schedule (s : State) : s.popEncIn.schedule = s.schedule := rfl
@[simp] theorem State.popEncIn_frm (s : State) : s.popEncIn.frm = s.frm := rfl

/-! ### `popDecIn` -/

@[simp] theorem State.popDecIn_enc (s : State) : s.popDecIn.enc = s.enc := rfl
@[simp] theorem State.popDecIn_encPend (s : State) : s.popDecIn.encPend = s.encPend := rfl
@[simp] theorem State.popDecIn_decPol (s : State) : s.popDecIn.decPol = s.decPol := rfl
@[simp] theorem State.popDecIn_decRunPol (s : State) : s.popDecIn.decRunPol = s.decRunPol := rfl
@[simp] theorem State.popDecIn_decRem (s : State) : s.popDecIn.decRem = s.decRem := rfl
@[simp] theorem State.popDecIn_decPendEof (s : State) : s.popDecIn.decPendEof = s.decPendEof := rfl
@[simp] theorem State.popDecIn_encIn (s : State) : s.popDecIn.encIn = s.encIn := rfl
@[simp] theorem State.popDecIn_encOut (s : State) : s.popDecIn.encOut = s.encOut := rfl
@[simp] theorem State.popDecIn_decIn (s : State) : s.popDecIn.decIn = s.decIn.tail := rfl
@[simp] theorem State.popDecIn_decOut (s : State) : s.popDecIn.decOut = s.decOut := rfl
@[simp] theorem State.popDecIn_encHeld (s : State) : s.popDecIn.encHeld = s.encHeld := rfl
@[simp] theorem State.popDecIn_decHeld (s : State) : s.popDecIn.decHeld = s.decHeld := rfl
@[simp] theorem State.popDecIn_linked (s : State) : s.popDecIn.linked = s.linked := rfl
@[simp] theorem State.popDecIn_schedule (s : State) : s.popDecIn.schedule = s.schedule := rfl
@[simp] theorem State.popDecIn_frm (s : State) : s.popDecIn.frm = s.frm := rfl

/-! ### `pushEncOut` -/

@[simp] theorem State.pushEncOut_enc (s : State) (y : PortSymbol) : (s.pushEncOut y).enc = s.enc := rfl
@[simp] theorem State.pushEncOut_encPend (s : State) (y : PortSymbol) : (s.pushEncOut y).encPend = s.encPend := rfl
@[simp] theorem State.pushEncOut_decPol (s : State) (y : PortSymbol) : (s.pushEncOut y).decPol = s.decPol := rfl
@[simp] theorem State.pushEncOut_decRunPol (s : State) (y : PortSymbol) : (s.pushEncOut y).decRunPol = s.decRunPol := rfl
@[simp] theorem State.pushEncOut_decRem (s : State) (y : PortSymbol) : (s.pushEncOut y).decRem = s.decRem := rfl
@[simp] theorem State.pushEncOut_decPendEof (s : State) (y : PortSymbol) : (s.pushEncOut y).decPendEof = s.decPendEof := rfl
@[simp] theorem State.pushEncOut_encIn (s : State) (y : PortSymbol) : (s.pushEncOut y).encIn = s.encIn := rfl
@[simp] theorem State.pushEncOut_encOut (s : State) (y : PortSymbol) : (s.pushEncOut y).encOut = s.encOut ++ [y.bits] := rfl
@[simp] theorem State.pushEncOut_decIn (s : State) (y : PortSymbol) : (s.pushEncOut y).decIn = s.decIn := rfl
@[simp] theorem State.pushEncOut_decOut (s : State) (y : PortSymbol) : (s.pushEncOut y).decOut = s.decOut := rfl
@[simp] theorem State.pushEncOut_encHeld (s : State) (y : PortSymbol) : (s.pushEncOut y).encHeld = s.encHeld := rfl
@[simp] theorem State.pushEncOut_decHeld (s : State) (y : PortSymbol) : (s.pushEncOut y).decHeld = s.decHeld := rfl
@[simp] theorem State.pushEncOut_linked (s : State) (y : PortSymbol) : (s.pushEncOut y).linked = s.linked := rfl
@[simp] theorem State.pushEncOut_schedule (s : State) (y : PortSymbol) : (s.pushEncOut y).schedule = s.schedule := rfl
@[simp] theorem State.pushEncOut_frm (s : State) (y : PortSymbol) : (s.pushEncOut y).frm = s.frm := rfl

/-! ### `pushDecOut` -/

@[simp] theorem State.pushDecOut_enc (s : State) (y : PortSymbol) : (s.pushDecOut y).enc = s.enc := rfl
@[simp] theorem State.pushDecOut_encPend (s : State) (y : PortSymbol) : (s.pushDecOut y).encPend = s.encPend := rfl
@[simp] theorem State.pushDecOut_decPol (s : State) (y : PortSymbol) : (s.pushDecOut y).decPol = s.decPol := rfl
@[simp] theorem State.pushDecOut_decRunPol (s : State) (y : PortSymbol) : (s.pushDecOut y).decRunPol = s.decRunPol := rfl
@[simp] theorem State.pushDecOut_decRem (s : State) (y : PortSymbol) : (s.pushDecOut y).decRem = s.decRem := rfl
@[simp] theorem State.pushDecOut_decPendEof (s : State) (y : PortSymbol) : (s.pushDecOut y).decPendEof = s.decPendEof := rfl
@[simp] theorem State.pushDecOut_encIn (s : State) (y : PortSymbol) : (s.pushDecOut y).encIn = s.encIn := rfl
@[simp] theorem State.pushDecOut_encOut (s : State) (y : PortSymbol) : (s.pushDecOut y).encOut = s.encOut := rfl
@[simp] theorem State.pushDecOut_decIn (s : State) (y : PortSymbol) : (s.pushDecOut y).decIn = s.decIn := rfl
@[simp] theorem State.pushDecOut_decOut (s : State) (y : PortSymbol) : (s.pushDecOut y).decOut = s.decOut ++ [y.bits] := rfl
@[simp] theorem State.pushDecOut_encHeld (s : State) (y : PortSymbol) : (s.pushDecOut y).encHeld = s.encHeld := rfl
@[simp] theorem State.pushDecOut_decHeld (s : State) (y : PortSymbol) : (s.pushDecOut y).decHeld = s.decHeld := rfl
@[simp] theorem State.pushDecOut_linked (s : State) (y : PortSymbol) : (s.pushDecOut y).linked = s.linked := rfl
@[simp] theorem State.pushDecOut_schedule (s : State) (y : PortSymbol) : (s.pushDecOut y).schedule = s.schedule := rfl
@[simp] theorem State.pushDecOut_frm (s : State) (y : PortSymbol) : (s.pushDecOut y).frm = s.frm := rfl

/-! ### `resetEnc` -/

@[simp] theorem State.resetEnc_enc (s : State) : s.resetEnc.enc = EncRegs.reset := rfl
@[simp] theorem State.resetEnc_encPend (s : State) : s.resetEnc.encPend = [] := rfl
@[simp] theorem State.resetEnc_decPol (s : State) : s.resetEnc.decPol = s.decPol := rfl
@[simp] theorem State.resetEnc_decRunPol (s : State) : s.resetEnc.decRunPol = s.decRunPol := rfl
@[simp] theorem State.resetEnc_decRem (s : State) : s.resetEnc.decRem = s.decRem := rfl
@[simp] theorem State.resetEnc_decPendEof (s : State) : s.resetEnc.decPendEof = s.decPendEof := rfl
@[simp] theorem State.resetEnc_encIn (s : State) : s.resetEnc.encIn = s.encIn := rfl
@[simp] theorem State.resetEnc_encOut (s : State) : s.resetEnc.encOut = s.encOut := rfl
@[simp] theorem State.resetEnc_decIn (s : State) : s.resetEnc.decIn = s.decIn := rfl
@[simp] theorem State.resetEnc_decOut (s : State) : s.resetEnc.decOut = s.decOut := rfl
@[simp] theorem State.resetEnc_encHeld (s : State) : s.resetEnc.encHeld = s.encHeld := rfl
@[simp] theorem State.resetEnc_decHeld (s : State) : s.resetEnc.decHeld = s.decHeld := rfl
@[simp] theorem State.resetEnc_linked (s : State) : s.resetEnc.linked = s.linked := rfl
@[simp] theorem State.resetEnc_schedule (s : State) : s.resetEnc.schedule = s.schedule := rfl
@[simp] theorem State.resetEnc_frm (s : State) : s.resetEnc.frm = s.frm := rfl

/-! ### `resetDec` -/

@[simp] theorem State.resetDec_enc (s : State) : s.resetDec.enc = s.enc := rfl
@[simp] theorem State.resetDec_encPend (s : State) : s.resetDec.encPend = s.encPend := rfl
@[simp] theorem State.resetDec_decPol (s : State) : s.resetDec.decPol = .dark := rfl
@[simp] theorem State.resetDec_decRunPol (s : State) : s.resetDec.decRunPol = .dark := rfl
@[simp] theorem State.resetDec_decRem (s : State) : s.resetDec.decRem = 0 := rfl
@[simp] theorem State.resetDec_decPendEof (s : State) : s.resetDec.decPendEof = false := rfl
@[simp] theorem State.resetDec_encIn (s : State) : s.resetDec.encIn = s.encIn := rfl
@[simp] theorem State.resetDec_encOut (s : State) : s.resetDec.encOut = s.encOut := rfl
@[simp] theorem State.resetDec_decIn (s : State) : s.resetDec.decIn = s.decIn := rfl
@[simp] theorem State.resetDec_decOut (s : State) : s.resetDec.decOut = s.decOut := rfl
@[simp] theorem State.resetDec_encHeld (s : State) : s.resetDec.encHeld = s.encHeld := rfl
@[simp] theorem State.resetDec_decHeld (s : State) : s.resetDec.decHeld = s.decHeld := rfl
@[simp] theorem State.resetDec_linked (s : State) : s.resetDec.linked = s.linked := rfl
@[simp] theorem State.resetDec_schedule (s : State) : s.resetDec.schedule = s.schedule := rfl
@[simp] theorem State.resetDec_frm (s : State) : s.resetDec.frm = s.frm := rfl

/-! ### `loadRun` -/

@[simp] theorem State.loadRun_enc (s : State) (n : Byte) : (State.loadRun n s).enc = s.enc := rfl
@[simp] theorem State.loadRun_encPend (s : State) (n : Byte) : (State.loadRun n s).encPend = s.encPend := rfl
@[simp] theorem State.loadRun_decPol (s : State) (n : Byte) : (State.loadRun n s).decPol = s.decPol.flip := rfl
@[simp] theorem State.loadRun_decRunPol (s : State) (n : Byte) : (State.loadRun n s).decRunPol = s.decPol := rfl
@[simp] theorem State.loadRun_decRem (s : State) (n : Byte) : (State.loadRun n s).decRem = n := rfl
@[simp] theorem State.loadRun_decPendEof (s : State) (n : Byte) : (State.loadRun n s).decPendEof = s.decPendEof := rfl
@[simp] theorem State.loadRun_encIn (s : State) (n : Byte) : (State.loadRun n s).encIn = s.encIn := rfl
@[simp] theorem State.loadRun_encOut (s : State) (n : Byte) : (State.loadRun n s).encOut = s.encOut := rfl
@[simp] theorem State.loadRun_decIn (s : State) (n : Byte) : (State.loadRun n s).decIn = s.decIn := rfl
@[simp] theorem State.loadRun_decOut (s : State) (n : Byte) : (State.loadRun n s).decOut = s.decOut := rfl
@[simp] theorem State.loadRun_encHeld (s : State) (n : Byte) : (State.loadRun n s).encHeld = s.encHeld := rfl
@[simp] theorem State.loadRun_decHeld (s : State) (n : Byte) : (State.loadRun n s).decHeld = s.decHeld := rfl
@[simp] theorem State.loadRun_linked (s : State) (n : Byte) : (State.loadRun n s).linked = s.linked := rfl
@[simp] theorem State.loadRun_schedule (s : State) (n : Byte) : (State.loadRun n s).schedule = s.schedule := rfl
@[simp] theorem State.loadRun_frm (s : State) (n : Byte) : (State.loadRun n s).frm = s.frm := rfl

/-! ### `loadEof` -/

@[simp] theorem State.loadEof_enc (s : State) : s.loadEof.enc = s.enc := rfl
@[simp] theorem State.loadEof_encPend (s : State) : s.loadEof.encPend = s.encPend := rfl
@[simp] theorem State.loadEof_decPol (s : State) : s.loadEof.decPol = .dark := rfl
@[simp] theorem State.loadEof_decRunPol (s : State) : s.loadEof.decRunPol = s.decRunPol := rfl
@[simp] theorem State.loadEof_decRem (s : State) : s.loadEof.decRem = s.decRem := rfl
@[simp] theorem State.loadEof_decPendEof (s : State) : s.loadEof.decPendEof = true := rfl
@[simp] theorem State.loadEof_encIn (s : State) : s.loadEof.encIn = s.encIn := rfl
@[simp] theorem State.loadEof_encOut (s : State) : s.loadEof.encOut = s.encOut := rfl
@[simp] theorem State.loadEof_decIn (s : State) : s.loadEof.decIn = s.decIn := rfl
@[simp] theorem State.loadEof_decOut (s : State) : s.loadEof.decOut = s.decOut := rfl
@[simp] theorem State.loadEof_encHeld (s : State) : s.loadEof.encHeld = s.encHeld := rfl
@[simp] theorem State.loadEof_decHeld (s : State) : s.loadEof.decHeld = s.decHeld := rfl
@[simp] theorem State.loadEof_linked (s : State) : s.loadEof.linked = s.linked := rfl
@[simp] theorem State.loadEof_schedule (s : State) : s.loadEof.schedule = s.schedule := rfl
@[simp] theorem State.loadEof_frm (s : State) : s.loadEof.frm = s.frm := rfl

/-! ### `noteOffers` -/

@[simp] theorem State.noteOffers_enc (s : State) (e : Edge) : (State.noteOffers e s).enc = s.enc := rfl
@[simp] theorem State.noteOffers_encPend (s : State) (e : Edge) : (State.noteOffers e s).encPend = s.encPend := rfl
@[simp] theorem State.noteOffers_decPol (s : State) (e : Edge) : (State.noteOffers e s).decPol = s.decPol := rfl
@[simp] theorem State.noteOffers_decRunPol (s : State) (e : Edge) : (State.noteOffers e s).decRunPol = s.decRunPol := rfl
@[simp] theorem State.noteOffers_decRem (s : State) (e : Edge) : (State.noteOffers e s).decRem = s.decRem := rfl
@[simp] theorem State.noteOffers_decPendEof (s : State) (e : Edge) : (State.noteOffers e s).decPendEof = s.decPendEof := rfl
@[simp] theorem State.noteOffers_encIn (s : State) (e : Edge) : (State.noteOffers e s).encIn = s.encIn := rfl
@[simp] theorem State.noteOffers_encOut (s : State) (e : Edge) : (State.noteOffers e s).encOut = s.encOut := rfl
@[simp] theorem State.noteOffers_decIn (s : State) (e : Edge) : (State.noteOffers e s).decIn = s.decIn := rfl
@[simp] theorem State.noteOffers_decOut (s : State) (e : Edge) : (State.noteOffers e s).decOut = s.decOut := rfl
@[simp] theorem State.noteOffers_encHeld (s : State) (e : Edge) : (State.noteOffers e s).encHeld = heldAfter (encOffer e s) (encInBeat e s) := rfl
@[simp] theorem State.noteOffers_decHeld (s : State) (e : Edge) : (State.noteOffers e s).decHeld = heldAfter (decOffer e s) (decInBeat e s) := rfl
@[simp] theorem State.noteOffers_linked (s : State) (e : Edge) : (State.noteOffers e s).linked = s.linked := rfl
@[simp] theorem State.noteOffers_schedule (s : State) (e : Edge) : (State.noteOffers e s).schedule = s.schedule := rfl
@[simp] theorem State.noteOffers_frm (s : State) (e : Edge) : (State.noteOffers e s).frm = s.frm := rfl

end Sys2Proof.Machine
end

