-- ==== Sys2Proof/Laws/Exec.lean ====
section
/-! SUPPORT. What an operation does, said once for each shared operation: the two input beats, and the
operations that a symbol selects in terms of Level O. -/

namespace Sys2Proof.Machine

@[simp] theorem andThen_next (s : State) (f) : andThen (.next s) f = f s := rfl

theorem andThen_eq_next {o f} {t : State} : andThen o f = .next t ↔ ∃ u, o = .next u ∧ f u = .next t := by
  cases o <;> simp [andThen]

theorem encReady_iff (s : State) : s.encReady = true ↔ s.encPend = [] ∧ s.enc.err = false := by
  simp [State.encReady]

theorem decReady_iff (s : State) : s.decReady = true ↔ s.decRem = 0 ∧ s.decPendEof = false := by
  simp [State.decReady]

/-- An input beat of ENC when it can consume a symbol. -/
theorem encInputBeat_ready {op : EncRegs → EncRegs × List PortSymbol} {s : State} (h : s.encReady = true) :
    encInputBeat op s = .next { s with enc := (op s.enc).1, encPend := (op s.enc).2 } := by
  simp [encInputBeat, h]

/-- An input beat of ENC when it cannot. -/
theorem encInputBeat_wait {op : EncRegs → EncRegs × List PortSymbol} {s : State} (h : s.encReady = false) :
    encInputBeat op s = .next s := by
  simp [encInputBeat, h]

/-- An input beat of DEC when it can consume a symbol. -/
theorem decInputBeat_ready {op : State → State} {s : State} (h : s.decReady = true) :
    decInputBeat op s = .next (op s) := by
  simp [decInputBeat, h]

/-- An input beat of DEC when it cannot. -/
theorem decInputBeat_wait {op : State → State} {s : State} (h : s.decReady = false) :
    decInputBeat op s = .next s := by
  simp [decInputBeat, h]

/-- The operation a symbol on `enc_in` selects is the input beat of its Level O operation. -/
theorem exec_decode_encIn (w : PortWord) (s : State) :
    exec (decode (.encIn w)) s = encInputBeat (encOp (decodeEncIn w)) s := by
  obtain ⟨b, rfl⟩ | ⟨d, rfl⟩ := word_cases w
  · simp only [decode, decodeEncIn_dataWord]
    split <;> [skip; split] <;> rfl
  · simp only [decode, decodeEncIn_eofWord]
    rfl

/-- What consuming the word `w` makes of DEC. -/
def State.decLoad (w : PortWord) (s : State) : State :=
  if symEof w then s.loadEof else State.loadRun (symData w) s

/-- The operation a symbol on `dec_in` selects is the input beat that loads it. -/
theorem exec_decode_decIn (w : PortWord) (s : State) :
    exec (decode (.decIn w)) s = decInputBeat (State.decLoad w) s := by
  obtain ⟨b, rfl⟩ | ⟨d, rfl⟩ := word_cases w
  · simp only [decode, decodeDecIn_dataWord]
    have : State.decLoad (dataWord b) = State.loadRun b := by funext s; simp [State.decLoad]
    rw [this]; rfl
  · simp only [decode, decodeDecIn_eofWord]
    have : State.decLoad (eofWord d) = State.loadEof := by funext s; simp [State.decLoad]
    rw [this]; rfl

/-- What DEC has pending once it has consumed `w`, with nothing pending before: the Level O output of `w`. -/
theorem decPending_decLoad {s : State} (h : s.decReady = true) (w : PortWord) :
    (s.decLoad w).decPending = (decOp (decodeDecIn w) s.decPol).2 := by
  obtain ⟨hr, he⟩ := (decReady_iff s).1 h
  obtain ⟨b, rfl⟩ | ⟨d, rfl⟩ := word_cases w
  · simp [State.decLoad, State.decPending, decOp, he]
  · simp [State.decLoad, State.decPending, decOp, hr]

/-- The polarity DEC has once it has consumed `w`. -/
theorem decPol_decLoad (w : PortWord) (s : State) :
    (s.decLoad w).decPol = (decOp (decodeDecIn w) s.decPol).1 := by
  obtain ⟨b, rfl⟩ | ⟨d, rfl⟩ := word_cases w <;> simp [State.decLoad, decOp]

/-- Consuming a symbol moves no stream of DEC and nothing of ENC. -/
theorem decLoad_frame (w : PortWord) (s : State) :
    (s.decLoad w).enc = s.enc ∧ (s.decLoad w).encPend = s.encPend ∧ (s.decLoad w).encIn = s.encIn ∧
    (s.decLoad w).encOut = s.encOut ∧ (s.decLoad w).decIn = s.decIn ∧ (s.decLoad w).decOut = s.decOut ∧
    (s.decLoad w).encHeld = s.encHeld ∧ (s.decLoad w).decHeld = s.decHeld ∧
    (s.decLoad w).linked = s.linked ∧ (s.decLoad w).schedule = s.schedule ∧ (s.decLoad w).frm = s.frm := by
  unfold State.decLoad; split <;> simp

/-- An output beat of ENC with something pending. -/
theorem encDeliver_cons {s : State} {y : PortSymbol} {ys : List PortSymbol} (h : s.encPend = y :: ys) :
    s.encDeliver = { s with encPend := ys, encOut := s.encOut ++ [y.bits] } := by
  simp [State.encDeliver, h, State.pushEncOut]

/-- An output beat of DEC during an expansion. -/
theorem decDeliver_run {s : State} (h : s.decRem ≠ 0) :
    s.decDeliver
      = { s with decRem := s.decRem - 1, decOut := s.decOut ++ [dataWord s.decRunPol.level] } := by
  unfold State.decDeliver
  rw [if_pos h]
  rfl

/-- An output beat of DEC with the marker pending. -/
theorem decDeliver_eof {s : State} (h : s.decRem = 0) (he : s.decPendEof = true) :
    s.decDeliver = { s with decPendEof := false, decOut := s.decOut ++ [PortSymbol.eof.bits] } := by
  simp [State.decDeliver, h, he, State.pushDecOut]

/-- An output beat of DEC moves the first pending symbol to the stream and touches nothing else. -/
theorem decPending_decDeliver {s : State} (h : s.decReady = false) :
    ∃ y, s.decPending = y :: s.decDeliver.decPending ∧ s.decDeliver.decOut = s.decOut ++ [y.bits] ∧
      s.decDeliver.decPol = s.decPol ∧ s.decDeliver.decIn = s.decIn := by
  by_cases hr : s.decRem = 0
  · have he : s.decPendEof = true := by simpa [State.decReady, hr] using h
    exact ⟨.eof, by simp [decDeliver_eof hr he, State.decPending, hr, he]⟩
  · refine ⟨.data s.decRunPol.level, ?_⟩
    have hn : s.decRem.toNat ≠ 0 := fun h0 => hr (by simpa using BitVec.eq_of_toNat_eq (y := 0#8) h0)
    have hs : (s.decRem - 1).toNat = s.decRem.toNat - 1 := by
      rw [BitVec.toNat_sub_of_le]
      · rfl
      · simp only [BitVec.le_def]; simp; omega
    rw [decDeliver_run hr]
    refine ⟨?_, rfl, rfl, rfl⟩
    simp only [State.decPending, hs]
    obtain ⟨k, hk⟩ := Nat.exists_eq_succ_of_ne_zero hn
    simp [hk, List.replicate_succ]

/-- Nothing is pending in DEC exactly when it can consume a symbol. -/
theorem decPending_eq_nil (s : State) : s.decPending = [] ↔ s.decReady = true := by
  simp only [decReady_iff, State.decPending]
  cases s.decPendEof <;> simp
  exact ⟨fun h => BitVec.eq_of_toNat_eq (by simpa using h), fun h => by simp [h]⟩

end Sys2Proof.Machine
end

