-- ==== Sys2Proof/Laws/Edge.lean ====
section
/-! SUPPORT. What a clock edge and a step can do, said once: the blocks' parts of an edge as functions of the
state, the four cases of each, and the inversion of a step into them. Proofs about steps cite these and unfold
neither `step` nor `exec`. -/

namespace Sys2Proof.Machine

/-- What ENC's part of an edge leaves. -/
def encAfter (a : BlockAction) (s : State) : State :=
  match a with
  | .reset => s.resetEnc
  | .input w =>
    if s.encReady then
      { s.popEncIn with enc := (encOp (decodeEncIn w) s.enc).1, encPend := (encOp (decodeEncIn w) s.enc).2 }
    else s.popEncIn
  | .output => s.encDeliver
  | .wait => s

/-- What DEC's part of an edge leaves. -/
def decAfter (a : BlockAction) (s : State) : State :=
  match a with
  | .reset => s.resetDec
  | .input w =>
    if s.decReady then (if s.linked then s else s.popDecIn).decLoad w
    else (if s.linked then s else s.popDecIn)
  | .output => s.decDeliver
  | .wait => s

theorem encReady_popEncIn (s : State) : s.popEncIn.encReady = s.encReady := rfl

theorem decReady_popDecIn (s : State) : s.popDecIn.decReady = s.decReady := rfl

/-- ENC's part of an edge always has a next state. -/
theorem encAct_eq (a : BlockAction) (s : State) : encAct a s = .next (encAfter a s) := by
  cases a with
  | reset => rfl
  | input w =>
    simp only [encAct, exec_decode_encIn, encAfter]
    cases h : s.encReady
    · rw [encInputBeat_wait (by rw [encReady_popEncIn, h])]; rfl
    · rw [encInputBeat_ready (by rw [encReady_popEncIn, h])]; rfl
  | output => rfl
  | wait => rfl

/-- DEC's part of an edge always has a next state. -/
theorem decAct_eq (a : BlockAction) (s : State) : decAct a s = .next (decAfter a s) := by
  cases a with
  | reset => rfl
  | input w =>
    simp only [decAct, exec_decode_decIn, decAfter]
    have hp : (if s.linked = true then s else s.popDecIn).decReady = s.decReady := by split <;> rfl
    cases h : s.decReady
    · rw [decInputBeat_wait (by rw [hp, h])]; rfl
    · rw [decInputBeat_ready (by rw [hp, h])]; rfl
  | output => rfl
  | wait => rfl

/-- A clock edge at which the HOST keeps the port discipline. -/
theorem clockEdge_eq {e : Edge} {s : State} (h : brokenOffer e s = none) :
    clockEdge e s = .next (decAfter (decAction e s) (encAfter (encAction e s) (s.noteOffers e))) := by
  simp only [clockEdge, h, encAct_eq, decAct_eq, andThen_next]

/-- A clock edge at which it does not. -/
theorem clockEdge_broken {e : Edge} {s : State} {p : Port} (h : brokenOffer e s = some p) :
    clockEdge e s = .refused (.portDiscipline p) := by
  simp [clockEdge, h]

/-- A step at the end of the schedule. -/
theorem step_nil {s : State} (h : s.schedule = []) : step s = .next s := by simp [step, h]

/-- A step is the next edge of the schedule. -/
theorem step_cons {s : State} {e : Edge} {es : List Edge} (h : s.schedule = e :: es) :
    step s = clockEdge e { s with schedule := es } := by simp [step, h]

/-- The signals and the offers at an edge do not depend on the schedule that is left. -/
theorem brokenOffer_schedule (e : Edge) (s : State) (es : List Edge) :
    brokenOffer e { s with schedule := es } = brokenOffer e s := rfl

/-- The inversion of a step: the schedule is at its end and nothing happens, or the HOST keeps the discipline
and both blocks' parts of the next edge are done. -/
theorem step_cases {s t : State} (h : step s = .next t) :
    (s.schedule = [] ∧ t = s) ∨
    ∃ e es, s.schedule = e :: es ∧ brokenOffer e s = none ∧
      t = decAfter (decAction e s) (encAfter (encAction e s) ({ s with schedule := es }.noteOffers e)) := by
  cases hs : s.schedule with
  | nil => rw [step_nil hs] at h; simp at h; exact .inl ⟨rfl, h.symm⟩
  | cons e es =>
    refine .inr ⟨e, es, rfl, ?_⟩
    rw [step_cons hs] at h
    cases hb : brokenOffer e s with
    | some p => rw [clockEdge_broken (by rw [brokenOffer_schedule, hb])] at h; simp at h
    | none =>
      rw [clockEdge_eq (by rw [brokenOffer_schedule, hb])] at h
      exact ⟨rfl, (by injection h with h; exact h.symm)⟩

/-- A step at which the HOST keeps the discipline. -/
theorem step_eq {s : State} {e : Edge} {es : List Edge} (hs : s.schedule = e :: es)
    (hb : brokenOffer e s = none) :
    step s
      = .next (decAfter (decAction e s) (encAfter (encAction e s) ({ s with schedule := es }.noteOffers e))) := by
  rw [step_cons hs, clockEdge_eq (by rw [brokenOffer_schedule, hb])]
  rfl

/-- The same, as the two blocks' parts in a row, with the state they start from written out. -/
theorem step_parts {s : State} {e : Edge} {es : List Edge} (hs : s.schedule = e :: es)
    (hb : brokenOffer e s = none) :
    step s = andThen
      (encAct (encAction e s)
        { s with
          schedule := es
          encHeld := heldAfter (encOffer e s) (encInBeat e s)
          decHeld := heldAfter (decOffer e s) (decInBeat e s) })
      (decAct (decAction e s)) := by
  rw [step_cons hs, clockEdge, brokenOffer_schedule, hb]
  rfl

/-! ### The frame of each block's part -/

/-- ENC's part leaves DEC and the HOST's fields alone. -/
theorem encAfter_frame (a : BlockAction) (s : State) :
    (encAfter a s).decPol = s.decPol ∧ (encAfter a s).decRunPol = s.decRunPol ∧
    (encAfter a s).decRem = s.decRem ∧ (encAfter a s).decPendEof = s.decPendEof ∧
    (encAfter a s).decIn = s.decIn ∧ (encAfter a s).decOut = s.decOut ∧
    (encAfter a s).encHeld = s.encHeld ∧ (encAfter a s).decHeld = s.decHeld ∧
    (encAfter a s).linked = s.linked ∧ (encAfter a s).schedule = s.schedule ∧ (encAfter a s).frm = s.frm := by
  cases a with
  | reset => simp [encAfter]
  | input w => simp only [encAfter]; split <;> simp
  | output =>
    simp only [encAfter]
    cases h : s.encPend with
    | nil => simp [State.encDeliver, h]
    | cons y ys => simp [encDeliver_cons h]
  | wait => simp [encAfter]

/-- DEC's part leaves ENC and the HOST's fields alone. -/
theorem decAfter_frame (a : BlockAction) (s : State) :
    (decAfter a s).enc = s.enc ∧ (decAfter a s).encPend = s.encPend ∧ (decAfter a s).encIn = s.encIn ∧
    (decAfter a s).encOut = s.encOut ∧ (decAfter a s).encHeld = s.encHeld ∧
    (decAfter a s).decHeld = s.decHeld ∧ (decAfter a s).linked = s.linked ∧
    (decAfter a s).schedule = s.schedule ∧ (decAfter a s).frm = s.frm := by
  cases a with
  | reset => simp [decAfter]
  | input w =>
    have := decLoad_frame w s
    have := decLoad_frame w s.popDecIn
    simp only [decAfter]
    split <;> split <;> simp_all
  | output =>
    simp only [decAfter, State.decDeliver]
    split
    · simp
    · split <;> simp
  | wait => simp [decAfter]

/-! ### The cases of each block's action -/

/-- What must hold for each action of ENC. -/
theorem encAction_cases (e : Edge) (s : State) :
    (e.encRst = true ∧ encAction e s = .reset) ∨
    (e.encRst = false ∧ s.encReady = true ∧ ∃ w ws, s.encIn = w :: ws ∧ e.encInValid = true ∧
      encAction e s = .input w) ∨
    (e.encRst = false ∧ (∃ y ys, s.encPend = y :: ys) ∧ encAccept e s = true ∧ encAction e s = .output) ∨
    (e.encRst = false ∧ encAction e s = .wait ∧
      (s.encReady = true → encOffer e s = none) ∧ (s.encPend ≠ [] → encAccept e s = false)) := by
  cases hr : e.encRst
  · cases hy : s.encReady
    · cases hp : s.encPend with
      | nil =>
        refine .inr (.inr (.inr ⟨rfl, ?_, by simp, by simp⟩))
        simp [encAction, hr, encInBeat, encInReady, hy, encOutBeat, encOutValid, hp]
      | cons y ys =>
        cases ha : encAccept e s
        · refine .inr (.inr (.inr ⟨rfl, ?_, by simp, by simp⟩))
          simp [encAction, hr, encInBeat, encInReady, hy, encOutBeat, encOutValid, hp, ha]
        · refine .inr (.inr (.inl ⟨rfl, ⟨y, ys, rfl⟩, rfl, ?_⟩))
          simp [encAction, hr, encInBeat, encInReady, hy, encOutBeat, encOutValid, hp, ha]
    · have hp := ((encReady_iff s).1 hy).1
      cases ho : encOffer e s with
      | none =>
        refine .inr (.inr (.inr ⟨rfl, ?_, by simp, by simp [hp]⟩))
        simp [encAction, hr, encInBeat, encInReady, hy, encOutBeat, encOutValid, hp, ho]
      | some w =>
        have : e.encInValid = true ∧ s.encIn.head? = some w := by
          simp only [encOffer] at ho; split at ho <;> simp_all
        obtain ⟨hv, hw⟩ := this
        cases hi : s.encIn with
        | nil => simp [hi] at hw
        | cons v vs =>
          obtain rfl : v = w := by simpa [hi] using hw
          refine .inr (.inl ⟨rfl, rfl, v, vs, rfl, hv, ?_⟩)
          simp [encAction, hr, encInBeat, encInReady, hy, ho]
  · exact .inl ⟨rfl, by simp [encAction, hr]⟩

/-- What must hold for each action of DEC. -/
theorem decAction_cases (e : Edge) (s : State) :
    (e.decRst = true ∧ decAction e s = .reset) ∨
    (e.decRst = false ∧ s.decReady = true ∧ ∃ w, decOffer e s = some w ∧ decAction e s = .input w) ∨
    (e.decRst = false ∧ s.decReady = false ∧ e.decOutReady = true ∧ decAction e s = .output) ∨
    (e.decRst = false ∧ decAction e s = .wait ∧
      (s.decReady = true → decOffer e s = none) ∧ (s.decReady = false → e.decOutReady = false)) := by
  cases hr : e.decRst
  · cases hy : s.decReady
    · cases ha : e.decOutReady
      · refine .inr (.inr (.inr ⟨rfl, ?_, by simp, by simp⟩))
        simp [decAction, hr, decInBeat, decInReady, hy, decOutBeat, decOutValid, ha]
      · refine .inr (.inr (.inl ⟨rfl, rfl, rfl, ?_⟩))
        simp [decAction, hr, decInBeat, decInReady, hy, decOutBeat, decOutValid, ha]
    · cases ho : decOffer e s with
      | none =>
        refine .inr (.inr (.inr ⟨rfl, ?_, by simp, by simp⟩))
        simp [decAction, hr, decInBeat, decInReady, hy, decOutBeat, decOutValid, ho]
      | some w =>
        refine .inr (.inl ⟨rfl, rfl, w, rfl, ?_⟩)
        simp [decAction, hr, decInBeat, decInReady, hy, ho]
  · exact .inl ⟨rfl, by simp [decAction, hr]⟩

/-- What DEC is offered when it is not wired to ENC. -/
theorem decOffer_own {e : Edge} {s : State} {w : PortWord} (hl : s.linked = false)
    (h : decOffer e s = some w) : e.decInValid = true ∧ ∃ ws, s.decIn = w :: ws := by
  simp only [decOffer, hl] at h
  cases hv : e.decInValid <;> simp [hv] at h
  cases hd : s.decIn <;> simp [hd] at h
  exact ⟨rfl, _, by rw [h]⟩

/-- What ENC's part of an edge does with its action, in four cases: the fields it may change. -/
theorem encAfter_input {w : PortWord} {s : State} (h : s.encReady = true) :
    (encAfter (.input w) s).enc = (encOp (decodeEncIn w) s.enc).1 ∧
    (encAfter (.input w) s).encPend = (encOp (decodeEncIn w) s.enc).2 ∧
    (encAfter (.input w) s).encIn = s.encIn.tail ∧ (encAfter (.input w) s).encOut = s.encOut := by
  simp [encAfter, h]

theorem decAfter_input {w : PortWord} {s : State} (h : s.decReady = true) (hl : s.linked = false) :
    decAfter (.input w) s = s.popDecIn.decLoad w := by
  simp [decAfter, h, hl]

theorem decAfter_input_linked {w : PortWord} {s : State} (h : s.decReady = true) (hl : s.linked = true) :
    decAfter (.input w) s = s.decLoad w := by
  simp [decAfter, h, hl]

/-- What the step does to ENC: one of four cases, or nothing. -/
theorem step_enc_cases {s t : State} (h : step s = .next t) :
    (s.schedule = [] ∧ t = s) ∨
    ∃ e es, s.schedule = e :: es ∧ t.schedule = es ∧ t.linked = s.linked ∧
      ((e.encRst = true ∧ t.enc = EncRegs.reset ∧ t.encPend = [] ∧ t.encIn = s.encIn ∧ t.encOut = s.encOut) ∨
       (e.encRst = false ∧ s.encPend = [] ∧ s.enc.err = false ∧ ∃ w, s.encIn = w :: t.encIn ∧
         t.enc = (encOp (decodeEncIn w) s.enc).1 ∧ t.encPend = (encOp (decodeEncIn w) s.enc).2 ∧
         t.encOut = s.encOut) ∨
       (e.encRst = false ∧ encAccept e s = true ∧ ∃ y, s.encPend = y :: t.encPend ∧ t.enc = s.enc ∧
         t.encIn = s.encIn ∧ t.encOut = s.encOut ++ [y.bits]) ∨
       (e.encRst = false ∧ t.enc = s.enc ∧ t.encPend = s.encPend ∧ t.encIn = s.encIn ∧ t.encOut = s.encOut ∧
         (s.encReady = true → encOffer e s = none) ∧ (s.encPend ≠ [] → encAccept e s = false))) := by
  obtain h | ⟨e, es, hs, -, rfl⟩ := step_cases h
  · exact .inl h
  · refine .inr ⟨e, es, hs, ?_⟩
    obtain ⟨d1, d2, d3, d4, -, -, d7, d8, -⟩ := decAfter_frame (decAction e s)
      (encAfter (encAction e s) ({ s with schedule := es }.noteOffers e))
    obtain ⟨-, -, -, -, -, -, -, -, e9, e10, -⟩ :=
      encAfter_frame (encAction e s) ({ s with schedule := es }.noteOffers e)
    rw [d1, d2, d3, d4, d7, d8, e9, e10]
    refine ⟨rfl, rfl, ?_⟩
    obtain ⟨hr, ha⟩ | ⟨hr, hy, w, ws, hi, -, ha⟩ | ⟨hr, ⟨y, ys, hp⟩, hc, ha⟩ | ⟨hr, ha, h1, h2⟩ :=
      encAction_cases e s <;> rw [ha]
    · exact .inl ⟨hr, rfl, rfl, rfl, rfl⟩
    · obtain ⟨h1, h2, h3, h4⟩ := encAfter_input (w := w) (s := { s with schedule := es }.noteOffers e) hy
      obtain ⟨hp, he⟩ := (encReady_iff s).1 hy
      refine .inr (.inl ⟨hr, hp, he, w, ?_, h1, h2, h4⟩)
      rw [h3]; simp [hi]
    · refine .inr (.inr (.inl ⟨hr, hc, y, ?_⟩))
      have hd : encAfter .output ({ s with schedule := es }.noteOffers e) = _ := encDeliver_cons (y := y) (ys := ys) hp
      rw [hd]
      exact ⟨hp, rfl, rfl, rfl⟩
    · exact .inr (.inr (.inr ⟨hr, rfl, rfl, rfl, rfl, h1, h2⟩))

/-- What the step does to DEC: one of four cases, or nothing. -/
theorem step_dec_cases {s t : State} (h : step s = .next t) :
    (s.schedule = [] ∧ t = s) ∨
    ∃ e es, s.schedule = e :: es ∧
      ((e.decRst = true ∧ t.decPol = .dark ∧ t.decRunPol = .dark ∧ t.decRem = 0 ∧ t.decPendEof = false ∧
         t.decIn = s.decIn ∧ t.decOut = s.decOut) ∨
       (e.decRst = false ∧ s.decReady = true ∧ ∃ w, decOffer e s = some w ∧
         t.decPol = (s.decLoad w).decPol ∧ t.decRunPol = (s.decLoad w).decRunPol ∧
         t.decRem = (s.decLoad w).decRem ∧ t.decPendEof = (s.decLoad w).decPendEof ∧
         t.decIn = (if s.linked then s.decIn else s.decIn.tail) ∧ t.decOut = s.decOut) ∨
       (e.decRst = false ∧ s.decReady = false ∧ e.decOutReady = true ∧ t.decPol = s.decPol ∧
         t.decRunPol = s.decRunPol ∧ t.decRem = s.decDeliver.decRem ∧
         t.decPendEof = s.decDeliver.decPendEof ∧ t.decIn = s.decIn ∧ t.decOut = s.decDeliver.decOut) ∨
       (e.decRst = false ∧ t.decPol = s.decPol ∧ t.decRunPol = s.decRunPol ∧ t.decRem = s.decRem ∧
         t.decPendEof = s.decPendEof ∧ t.decIn = s.decIn ∧ t.decOut = s.decOut ∧
         (s.decReady = true → decOffer e s = none) ∧ (s.decReady = false → e.decOutReady = false))) := by
  obtain h | ⟨e, es, hs, -, rfl⟩ := step_cases h
  · exact .inl h
  · refine .inr ⟨e, es, hs, ?_⟩
    obtain ⟨e1, e2, e3, e4, e5, e6, -, -, e9, -, -⟩ :=
      encAfter_frame (encAction e s) ({ s with schedule := es }.noteOffers e)
    generalize encAfter (encAction e s) ({ s with schedule := es }.noteOffers e) = u at *
    simp only [State.noteOffers_decPol, State.noteOffers_decRunPol, State.noteOffers_decRem,
      State.noteOffers_decPendEof, State.noteOffers_decIn, State.noteOffers_decOut,
      State.noteOffers_linked] at e1 e2 e3 e4 e5 e6 e9
    obtain ⟨hr, ha⟩ | ⟨hr, hy, w, ho, ha⟩ | ⟨hr, hy, hc, ha⟩ | ⟨hr, ha, h1, h2⟩ :=
      decAction_cases e s <;> rw [ha]
    · exact .inl ⟨hr, rfl, rfl, rfl, rfl, by simp [decAfter, e5], by simp [decAfter, e6]⟩
    · have hu : u.decReady = true := by rw [decReady_iff] at hy ⊢; rw [e3, e4]; exact hy
      refine .inr (.inl ⟨hr, hy, w, ho, ?_⟩)
      simp only [decAfter, hu, e9]
      cases hl : s.linked <;> simp [State.decLoad] <;> split <;> simp [e1, e2, e3, e4, e5, e6]
    · refine .inr (.inr (.inl ⟨hr, hy, hc, ?_⟩))
      simp only [decAfter, State.decDeliver, e3, e4]
      split
      · simp [e1, e2, e5, e6]
      · split <;> simp [e1, e2, e3, e4, e5, e6]
    · exact .inr (.inr (.inr ⟨hr, e1, e2, e3, e4, e5, e6, h1, h2⟩))

end Sys2Proof.Machine
end

