-- ==== Sys2Proof/Laws/Commit.lean ====
section
/-! SUPPORT. The small lemmas of the HOST's account of what is committed, and what a step adds to it. -/

namespace Sys2Proof.Machine

@[simp] theorem commitFrom_nil (r : List PortWord) : commitFrom r [] = [] := rfl

@[simp] theorem commitFrom_void (r : List PortWord) (es : List Seen) :
    commitFrom r (.void :: es) = commitFrom [] es := rfl

theorem commitFrom_marker {w : PortWord} (h : symEof w = true) (r : List PortWord) (es : List Seen) :
    commitFrom r (.word w :: es) = r ++ w :: commitFrom [] es := by simp [commitFrom, h]

theorem commitFrom_byte {w : PortWord} (h : symEof w = false) (r : List PortWord) (es : List Seen) :
    commitFrom r (.word w :: es) = commitFrom (r ++ [w]) es := by simp [commitFrom, h]

/-- A fault or a reset cuts the account in two: nothing received before it counts after it. -/
theorem commitFrom_append_void (r : List PortWord) (es fs : List Seen) :
    commitFrom r (es ++ .void :: fs) = commitFrom r es ++ commitFrom [] fs := by
  induction es generalizing r with
  | nil => rfl
  | cons x es ih =>
    cases x with
    | void => simpa using ih []
    | word w =>
      cases h : symEof w
      · simp [commitFrom_byte h, ih]
      · simp [commitFrom_marker h, ih]

@[simp] theorem seenOver_zero (seenAt : Edge → State → List Seen) (s : State) : seenOver seenAt 0 s = [] := rfl

/-- One step that has a next state. -/
theorem seenOver_succ {seenAt : Edge → State → List Seen} {s t : State} {e : Edge} {es : List Edge}
    (hs : s.schedule = e :: es) (h : step s = .next t) (n : Nat) :
    seenOver seenAt (n + 1) s = seenAt e s ++ seenOver seenAt n t := by simp [seenOver, hs, h]

/-- At the end of the schedule nothing is seen. -/
theorem seenOver_nil {seenAt : Edge → State → List Seen} {s : State} (hs : s.schedule = []) (n : Nat) :
    seenOver seenAt n s = [] := by cases n <;> simp [seenOver, hs]

/-- A step that is refused shows nothing. -/
theorem seenOver_refused {seenAt : Edge → State → List Seen} {s : State} {r : Refusal} (h : step s = .refused r)
    (n : Nat) : seenOver seenAt n s = [] := by
  cases n with
  | zero => rfl
  | succ n => cases hs : s.schedule <;> simp [seenOver, hs, h]

theorem encSeenAt_reset {e : Edge} (h : e.encRst = true) (s : State) : encSeenAt e s = [.void] := by
  simp [encSeenAt, h]

theorem encSeenAt_fault (e : Edge) {s : State} (h : s.enc.err = true) : encSeenAt e s = [.void] := by
  simp [encSeenAt, encErrWire, h]

/-- With nothing pending there is no beat to see. -/
theorem encSeenAt_idle {e : Edge} {s : State} (hr : e.encRst = false) (he : s.enc.err = false)
    (h : s.encPend = []) : encSeenAt e s = [] := by
  simp [encSeenAt, encErrWire, hr, he, encOutBeat, encOutValid, h]

/-- With something pending, its head is seen where the other side accepts. -/
theorem encSeenAt_cons {e : Edge} {s : State} {y : PortSymbol} {ys : List PortSymbol} (hr : e.encRst = false)
    (he : s.enc.err = false) (h : s.encPend = y :: ys) :
    encSeenAt e s = if encAccept e s then [.word y.bits] else [] := by
  simp [encSeenAt, encErrWire, hr, he, encOutBeat, encOutValid, h, encOutSym]

theorem decSeenAt_reset {e : Edge} (h : e.decRst = true) (s : State) : decSeenAt e s = [.void] := by
  simp [decSeenAt, h]

/-- Of DEC, the symbol it has to deliver next is seen where the HOST accepts. -/
theorem decSeenAt_next {e : Edge} {s : State} (hr : e.decRst = false) :
    decSeenAt e s
      = if s.decReady = false ∧ e.decOutReady = true then (s.decNext.map PortSymbol.bits).toList.map .word
        else [] := by
  cases h : s.decReady <;> cases h' : e.decOutReady <;>
    simp [decSeenAt, hr, decOutBeat, decOutValid, decOutSym, h, h']

end Sys2Proof.Machine
end

