-- ==== Sys2Proof/Laws/Framer.lean ====
section
/-! SUPPORT. The small lemmas of the Level F functions: the framing loop on a length split into pairs and a
terminal byte, sums and lengths of pairs, and one round of `encode` and of `decode`. -/

namespace Sys2Proof

/-! ### The framing loop -/

/-- A length that one byte carries ends the loop at once. -/
theorem frameLoop_small (fuel len : Nat) (h : len ≤ 255) : frameLoop fuel len = [BitVec.ofNat 8 len] := by
  cases fuel with
  | zero => rfl
  | succ fuel => rw [frameLoop, if_neg (by simp only [Config.maxB]; omega)]

/-- With fuel enough, the loop writes `k` pairs and the terminal byte `t`. -/
theorem frameLoop_pairs (fuel k t : Nat) (h1 : 1 ≤ t) (h2 : t ≤ 255) (hk : k ≤ fuel) :
    frameLoop fuel (255 * k + t) = contPairs k ++ [BitVec.ofNat 8 t] := by
  induction k generalizing fuel with
  | zero => simpa [contPairs] using frameLoop_small fuel t h2
  | succ k ih =>
    obtain ⟨f, rfl⟩ : ∃ f, fuel = f + 1 := ⟨fuel - 1, by omega⟩
    have hs : 255 * (k + 1) + t - 255 = 255 * k + t := by omega
    rw [frameLoop, if_pos (by simp only [Config.maxB]; omega), hs, ih f (by omega)]
    rfl

/-- `L div 255` rounds are enough. -/
theorem frame_eq_loop {len : Nat} (h : len ≠ 0) : frame len = frameLoop (len / 255) len := by
  simp [frame, h]

/-- Every length is 0, or `255 × k + t` with `1 ≤ t ≤ 255`. -/
theorem length_split (len : Nat) : len = 0 ∨ ∃ k t, len = 255 * k + t ∧ 1 ≤ t ∧ t ≤ 255 := by
  rcases Nat.eq_zero_or_pos len with h | h
  · exact .inl h
  · exact .inr ⟨(len - 1) / 255, len - 255 * ((len - 1) / 255), by omega, by omega, by omega⟩

/-! ### Sums and lengths -/

@[simp] theorem byteSum_nil : byteSum [] = 0 := rfl

@[simp] theorem byteSum_cons (b : Byte) (bs : List Byte) : byteSum (b :: bs) = b.toNat + byteSum bs := by
  simp [byteSum]

@[simp] theorem byteSum_append (as bs : List Byte) : byteSum (as ++ bs) = byteSum as + byteSum bs := by
  simp [byteSum]

theorem contPairs_succ (k : Nat) : contPairs (k + 1) = 255 :: 0 :: contPairs k := rfl

theorem byteSum_contPairs (k : Nat) : byteSum (contPairs k) = 255 * k := by
  induction k with
  | zero => rfl
  | succ k ih => rw [contPairs_succ, byteSum_cons, byteSum_cons, ih]; simp; omega

theorem length_contPairs (k : Nat) : (contPairs k).length = 2 * k := by
  induction k with
  | zero => rfl
  | succ k ih => rw [contPairs_succ]; simp [ih]; omega

/-! ### One round of `encode` and of `decode` -/

/-- A pixel of the run's own polarity raises the count. -/
theorem encodeFrom_continue (pol : Polarity) (c : Nat) (ps : List Byte) :
    encodeFrom pol c (pol.level :: ps) = encodeFrom pol (c + 1) ps := by
  cases pol <;> simp [encodeFrom, Polarity.level, validPixel]

/-- A pixel of the other polarity closes the run. -/
theorem encodeFrom_break (pol : Polarity) (c : Nat) (ps : List Byte) :
    encodeFrom pol c (pol.flip.level :: ps) = (encodeFrom pol.flip 1 ps).after (frame c) := by
  cases pol <;> simp [encodeFrom, Polarity.level, validPixel, Polarity.flip]

/-- An invalid pixel ends the scan with the error. -/
theorem encodeFrom_invalid (pol : Polarity) (c : Nat) {p : Byte} (h : validPixel p = false) (ps : List Byte) :
    encodeFrom pol c (p :: ps) = .invalidPixelValue := by simp [encodeFrom, h]

@[simp] theorem decodeFrom_nil (pol : Polarity) : decodeFrom pol [] = [] := rfl

@[simp] theorem decodeFrom_cons (pol : Polarity) (b : Byte) (bs : List Byte) :
    decodeFrom pol (b :: bs) = List.replicate b.toNat pol.level ++ decodeFrom pol.flip bs := rfl

/-- The pairs of a framing read as one run: the two flips of each cancel (R146). -/
theorem decodeFrom_contPairs (pol : Polarity) (k : Nat) (bs : List Byte) :
    decodeFrom pol (contPairs k ++ bs) = List.replicate (255 * k) pol.level ++ decodeFrom pol bs := by
  induction k with
  | zero => simp [contPairs]
  | succ k ih =>
    have h255 : BitVec.toNat (255 : Byte) = 255 := rfl
    have h0 : BitVec.toNat (0 : Byte) = 0 := rfl
    rw [contPairs_succ, List.cons_append, List.cons_append, decodeFrom_cons, decodeFrom_cons,
      Polarity.flip_flip, ih, h255, h0, List.replicate_zero, List.nil_append, Nat.mul_add, Nat.mul_one,
      Nat.add_comm, List.replicate_add, List.append_assoc]

end Sys2Proof
end

