-- ==== Sys2Proof/Laws/LevelO.lean ====
section
/-! SUPPORT. The small lemmas of Level O: a run over joined inputs is the runs one after the other, and what one
pixel of each kind does. -/

namespace Sys2Proof.Machine

@[simp] theorem encRun_nil (r : EncRegs) : encRun r [] = { regs := r, out := [], rest := [] } := rfl

/-- In the fault state nothing is consumed. -/
theorem encRun_fault {r : EncRegs} (h : r.err = true) (ws : List PortWord) :
    encRun r ws = { regs := r, out := [], rest := ws } := by
  cases ws <;> simp [encRun, h]

/-- One symbol. -/
theorem encRun_cons {r : EncRegs} (h : r.err = false) (w : PortWord) (ws : List PortWord) :
    encRun r (w :: ws) =
      { encRun (encOp (decodeEncIn w) r).1 ws with
        out := (encOp (decodeEncIn w) r).2 ++ (encRun (encOp (decodeEncIn w) r).1 ws).out } := by
  simp [encRun, h]

/-- A pause within a frame changes nothing (R238): the second part goes on from the registers the first left. -/
theorem encRun_append (r : EncRegs) (us vs : List PortWord) (h : (encRun r us).rest = []) :
    encRun r (us ++ vs) =
      { encRun (encRun r us).regs vs with out := (encRun r us).out ++ (encRun (encRun r us).regs vs).out } := by
  induction us generalizing r with
  | nil => simp
  | cons w us ih =>
    cases he : r.err
    · rw [encRun_cons he] at h ⊢
      rw [List.cons_append, encRun_cons he, ih _ h]
      simp
    · rw [encRun_fault he] at h; simp at h

@[simp] theorem decRun_nil (pol : Polarity) : decRun pol [] = (pol, []) := rfl

/-- One symbol. -/
@[simp] theorem decRun_cons (pol : Polarity) (w : PortWord) (ws : List PortWord) :
    decRun pol (w :: ws) =
      ((decRun (decOp (decodeDecIn w) pol).1 ws).1,
       (decOp (decodeDecIn w) pol).2 ++ (decRun (decOp (decodeDecIn w) pol).1 ws).2) := rfl

/-- The second part of an input goes on from the polarity the first left. -/
theorem decRun_append (pol : Polarity) (us vs : List PortWord) :
    decRun pol (us ++ vs) =
      ((decRun (decRun pol us).1 vs).1, (decRun pol us).2 ++ (decRun (decRun pol us).1 vs).2) := by
  induction us generalizing pol with
  | nil => simp
  | cons w us ih => simp [ih]

/-- A pixel of level `p` is the pixel operation of that level. -/
theorem encOp_level (p : Polarity) (r : EncRegs) :
    encOp (decodeEncIn (dataWord p.level)) r = encPixel p r := by cases p <;> rfl

/-- A marker is `ENC.EOF`. -/
@[simp] theorem encOp_eof (d : Byte) (r : EncRegs) : encOp (decodeEncIn (eofWord d)) r = encEndFrame r := by
  simp [encOp]

/-- The three cases of a pixel operation. -/
theorem encPixel_continue {p : Polarity} {r : EncRegs} (h : r.pol = p) (hc : r.cnt.toNat < 255) :
    encPixel p r = ({ r with cnt := r.cnt + 1 }, []) := by simp [encPixel, h, hc]

theorem encPixel_spill {p : Polarity} {r : EncRegs} (h : r.pol = p) (hc : r.cnt.toNat = 255) :
    encPixel p r = ({ r with cnt := 1 }, [.data 255, .data 0]) := by simp [encPixel, h, hc]

theorem encPixel_break {p : Polarity} {r : EncRegs} (h : r.pol ≠ p) :
    encPixel p r = ({ r with cnt := 1, pol := p }, [.data r.cnt]) := by simp [encPixel, h]

/-- No pixel operation touches the fault flag. -/
theorem encPixel_err (p : Polarity) (r : EncRegs) : (encPixel p r).1.err = r.err := by
  unfold encPixel; split <;> [split; skip] <;> rfl

end Sys2Proof.Machine
end

