-- ==== Sys2Proof/Laws/PerInstr.lean ====
section
/-! SUPPORT. The family of statements made for each operation: the selector an operation is encoded to lies in
the space of its row of spec/opcode_table.json and matches the row. -/

namespace Sys2Proof.Laws.EncodesIntoItsRow

/-- A row of the table with this space and mnemonic takes the word. -/
def rowTakes (p : Port) (m : String) (w : PortWord) : Bool :=
  symRows.any fun r => r.space == p && r.mnemonic == m && r.takes w

/-- The selector of a well-formed operation is of the space that its row names, and matches the row where the
row has a word (R88). -/
def Statement (i : Instr) : Prop :=
  i.wellFormed = true →
    match encode i with
    | .encIn w => rowTakes .encIn i.mnemonic w = true
    | .decIn w => rowTakes .decIn i.mnemonic w = true
    | .encRst => i.mnemonic = "ENC.RESET"
    | .decRst => i.mnemonic = "DEC.RESET"
    | .frame _ => i.mnemonic = "FRM.ENC"
    | .unframe _ => i.mnemonic = "FRM.DEC"

theorem encPixd : Statement .encPixd := fun _ => rfl

theorem encPixl : Statement .encPixl := fun _ => rfl

theorem encPixbad (b : Byte) : Statement (.encPixbad b) := fun _ => by
  simp [encode, rowTakes, symRows, Instr.mnemonic, SymRow.takes]
  exact dataWord_and_eofMask _

theorem encEof (d : Byte) : Statement (.encEof d) := fun _ => by
  simp [encode, rowTakes, symRows, Instr.mnemonic, SymRow.takes]
  exact eofWord_and_eofMask _

theorem encReset : Statement .encReset := fun _ => rfl

theorem frmEnc (len : Nat) : Statement (.frmEnc len) := fun _ => rfl

theorem frmDec (bs : List Byte) : Statement (.frmDec bs) := fun _ => rfl

theorem decRun (n : Byte) : Statement (.decRun n) := fun _ => by
  simp [encode, rowTakes, symRows, Instr.mnemonic, SymRow.takes]
  exact dataWord_and_eofMask _

theorem decEof (d : Byte) : Statement (.decEof d) := fun _ => by
  simp [encode, rowTakes, symRows, Instr.mnemonic, SymRow.takes]
  exact eofWord_and_eofMask _

theorem decReset : Statement .decReset := fun _ => rfl

end Sys2Proof.Laws.EncodesIntoItsRow
end

