-- ==== Sys2Proof/Tests/Slice0.lean ====
section
/-! SUPPORT. The model's own tests. Every expected value is from spec/95_test_vectors.md (the vector's name is in
the comment) or from the rule named there. The second part shows, for each statement with hypotheses, a concrete
state and operands that meet them. -/

namespace Sys2Proof.Tests

open Sys2Proof Sys2Proof.Machine

/-- The next state of an outcome, if it has one. -/
def next? (o : Host.Outcome State Fault Refusal) : Option State :=
  match o with
  | .next s => some s
  | .fault _ => none
  | .refused _ => none

/-- The refusal of an outcome, if it is one. -/
def refusal? (o : Host.Outcome State Fault Refusal) : Option Refusal :=
  match o with
  | .next _ => none
  | .fault _ => none
  | .refused r => some r

/-- ENC in a state `(pol, cnt, err)` with `pend`, everything else as after reset. -/
def encAt (pol : Polarity) (cnt : BitVec 8) (err : Bool) (pend : List PortSymbol) : State :=
  { State.reset with enc := { pol := pol, cnt := cnt, err := err }, encPend := pend }

/-- DEC in a state `(pol, run_pol, rem, pend_eof)`, everything else as after reset. -/
def decAt (pol runPol : Polarity) (rem : BitVec 8) (pendEof : Bool) : State :=
  { State.reset with decPol := pol, decRunPol := runPol, decRem := rem, decPendEof := pendEof }

/-- ENC's registers and pending symbols after an operation. -/
def encView (o : Host.Outcome State Fault Refusal) : Option (EncRegs × List PortSymbol) :=
  (next? o).map fun s => (s.enc, s.encPend)

/-- DEC's registers after an operation. -/
def decView (o : Host.Outcome State Fault Refusal) : Option (Polarity × Polarity × BitVec 8 × Bool) :=
  (next? o).map fun s => (s.decPol, s.decRunPol, s.decRem, s.decPendEof)

/-- An edge at which the HOST offers and accepts on both blocks. -/
def willing : Edge :=
  { encRst := false, decRst := false, encInValid := true, encOutReady := true, decInValid := true,
    decOutReady := true }

/-- An edge at which the HOST does nothing. -/
def quiet : Edge :=
  { encRst := false, decRst := false, encInValid := false, encOutReady := false, decInValid := false,
    decOutReady := false }

/-! ### Well-formedness: one ill-formed term for each check -/

theorem test_pixbad_zero_is_ill_formed : (Instr.encPixbad 0).wellFormed = false := by decide

theorem test_pixbad_255_is_ill_formed : (Instr.encPixbad 255).wellFormed = false := by decide

theorem test_pixbad_bounds_are_well_formed :
    (Instr.encPixbad 1).wellFormed = true ∧ (Instr.encPixbad 254).wellFormed = true := by decide

/-! ### Decoding: words written out from R80 and R88, one for each constructor -/

theorem test_decode_pixd : decode (.encIn 0b000000000) = .encPixd := by decide

theorem test_decode_pixl : decode (.encIn 0b011111111) = .encPixl := by decide

theorem test_decode_pixbad :
    decode (.encIn 0b000000001) = .encPixbad 1 ∧ decode (.encIn 0b011111110) = .encPixbad 254 := by decide

theorem test_decode_enc_eof :
    decode (.encIn 0b100000000) = .encEof 0 ∧ decode (.encIn 0b110000000) = .encEof 0x80 := by decide

theorem test_decode_run :
    decode (.decIn 0b000000000) = .decRun 0 ∧ decode (.decIn 0b011111111) = .decRun 255 := by decide

theorem test_decode_dec_eof : decode (.decIn 0b111000011) = .decEof 0xC3 := by decide

theorem test_decode_signals : decode .encRst = .encReset ∧ decode .decRst = .decReset := by decide

theorem test_decode_functions :
    decode (.frame 300) = .frmEnc 300 ∧ decode (.unframe [255, 0, 45]) = .frmDec [255, 0, 45] := by decide

theorem test_decode_rejects_by_name :
    decodeAt .encIn 511 = .ok (.encEof 255) ∧ decodeAt .decIn 512 = .error .notNineBits ∧
    decodeAt .encOut 0 = .error .notAnInputPort := by decide

theorem test_table_word_is_read_on_enc_in :
    decodeTableWord 16 0x000 = some .encPixd ∧ decodeTableWord 16 0x0FF = some .encPixl ∧
    decodeTableWord 16 0x100 = some (.encEof 0) ∧ decodeTableWord 16 0x22D = some (.decRun 45) ∧
    decodeTableWord 16 0x400 = none := by decide

/-! ### One operation at a time -/

/-- E4: a spill. -/
theorem test_pixd_spill :
    encView (exec .encPixd (encAt .dark 255 false [])) = some (⟨.dark, 1, false⟩, [.data 255, .data 0]) := by
  decide

/-- E7: a break at 255 is one byte and no pair. -/
theorem test_pixd_break_at_255 :
    encView (exec .encPixd (encAt .light 255 false [])) = some (⟨.dark, 1, false⟩, [.data 255]) := by decide

/-- E8: a frame that starts light. -/
theorem test_pixl_at_frame_start :
    encView (exec .encPixl (encAt .dark 0 false [])) = some (⟨.light, 1, false⟩, [.data 0]) := by decide

/-- E12: the count reaches 255 with nothing emitted. -/
theorem test_pixl_reaches_255 :
    encView (exec .encPixl (encAt .light 254 false [])) = some (⟨.light, 255, false⟩, []) := by decide

/-- E17: an invalid pixel with a full count gives no spill and no byte. -/
theorem test_pixbad_with_full_count :
    encView (exec (.encPixbad 127) (encAt .dark 255 false [])) = some (⟨.dark, 255, true⟩, []) := by decide

/-- E27: in the fault state no symbol is consumed. -/
theorem test_pixbad_in_fault_state :
    encView (exec (.encPixbad 1) (encAt .dark 5 true [])) = some (⟨.dark, 5, true⟩, []) := by decide

/-- E18: the empty frame. -/
theorem test_enc_eof_empty_frame :
    encView (exec (.encEof 0) (encAt .dark 0 false [])) = some (⟨.dark, 0, false⟩, [.data 0, .eof]) := by decide

/-- E22: data bits ignored; the emitted marker is `0x100`. -/
theorem test_enc_eof_ignores_data :
    encView (exec (.encEof 0xAB) (encAt .dark 45 false [])) = some (⟨.dark, 0, false⟩, [.data 45, .eof]) ∧
    PortSymbol.eof.bits = 0x100 := by decide

/-- E24: out of the fault state. -/
theorem test_enc_reset_from_fault :
    encView (exec .encReset (encAt .light 77 true [])) = some (⟨.dark, 0, false⟩, []) := by decide

/-- E25: pending output is dropped. -/
theorem test_enc_reset_drops_pending :
    encView (exec .encReset (encAt .light 1 false [.data 3])) = some (⟨.dark, 0, false⟩, []) := by decide

/-- S4 and S3. -/
theorem test_frame_510_and_256 : frame 510 = [255, 0, 255] ∧ frame 256 = [255, 0, 1] := by decide

/-- S2 and S1, through the operation. -/
theorem test_frm_enc_255 :
    (next? (exec (.frmEnc 255) State.reset)).map State.frm = some (.bytes [255]) ∧ frame 0 = [0] := by decide

/-- 2.2: `[255, 0, 45]` is 300. -/
theorem test_frm_dec_300 :
    (next? (exec (.frmDec [255, 0, 45]) State.reset)).map State.frm = some (.length 300) := by decide

/-- 2.2: `[255, 0]` and `[]` are refused. -/
theorem test_frm_dec_refused :
    refusal? (exec (.frmDec [255, 0]) State.reset) = some .notAFraming ∧
    refusal? (exec (.frmDec []) State.reset) = some .notAFraming := by decide

/-- D2 at Level B (R164). -/
theorem test_run_two_light :
    decView (exec (.decRun 2) (decAt .light .dark 0 false)) = some (.dark, .light, 2, false) := by decide

/-- D3: a byte 0 flips the polarity and leaves nothing to deliver. -/
theorem test_run_zero :
    decView (exec (.decRun 0) (decAt .dark .light 0 false)) = some (.light, .dark, 0, false) := by decide

/-- D11. -/
theorem test_dec_eof_ignores_data :
    decView (exec (.decEof 0xC3) (decAt .light .light 0 false)) = some (.dark, .light, 0, true) := by decide

/-- D12: the pixels left are dropped. -/
theorem test_dec_reset_drops_pixels :
    decView (exec .decReset (decAt .dark .light 17 false)) = some (.dark, .dark, 0, false) := by decide

/-- D13: the pending marker is dropped. -/
theorem test_dec_reset_drops_marker :
    decView (exec .decReset (decAt .dark .dark 0 true)) = some (.dark, .dark, 0, false) := by decide

/-! ### The functions -/

/-- S11 and S12. -/
theorem test_encode_alternation :
    encodeFrame [0, 0, 0, 255, 255, 0] = .bytes [3, 2, 1] ∧
    decodeFrame [3, 2, 1] = [0, 0, 0, 255, 255, 0] := by decide

/-- L4: canonical and not. -/
theorem test_canonical :
    isCanonical [0, 255, 0, 1] = true ∧ isCanonical [3, 0, 2] = false ∧ isCanonical [255, 0, 0, 1] = false ∧
    isCanonical [0, 0] = false := by decide

/-- L8. -/
theorem test_runs : runs [2, 255, 0, 255, 0, 1] = some [2, 511] ∧ runs [255, 0] = none := by decide

/-! ### One step -/

/-- P7, edge 5: an output beat of DEC and an input beat of ENC at the same edge. -/
theorem test_step_two_beats :
    (next? (step { State.reset with
        enc := ⟨.dark, 1, false⟩, decPol := .dark, decRunPol := .light, decRem := 1,
        encIn := [0x000, 0x100], linked := true, schedule := [willing] })).map
      (fun s => (s.enc.cnt, s.decRem, s.decOut, s.encIn))
    = some (2, 0, [0x0FF], [0x100]) := by decide

/-- P7, edge 7: one beat on the wire from ENC to DEC. -/
theorem test_step_link :
    (next? (step { State.reset with
        encPend := [.data 2, .eof], decRunPol := .light, linked := true, schedule := [willing] })).map
      (fun s => (s.encPend, s.decPol, s.decRunPol, s.decRem, s.encOut))
    = some ([.eof], .light, .dark, 2, [0x002]) := by decide

/-- P5, line 5: reset wins, and the symbol offered stays offered. -/
theorem test_step_reset_wins :
    (next? (step { encAt .light 1 true [] with
        encIn := [0x000], encHeld := some 0x000, schedule := [{ willing with encRst := true }] })).map
      (fun s => (s.enc, s.encIn, s.encHeld))
    = some (EncRegs.reset, [0x000], some 0x000) := by decide

/-- P5: of `001`, the fault, the reset, and `001 001 100`, only the frame `[1, 1]` is committed. -/
theorem test_faulted_frame_is_not_committed :
    committed [.word 0x001, .void, .void, .word 0x001, .word 0x001, .word 0x100] = [0x001, 0x001, 0x100] := by
  decide

/-- P5, lines 3 and 5: what the HOST sees in the fault state and at the reset, and a byte delivered before it. -/
theorem test_seen_at_an_edge :
    encSeenAt quiet (encAt .light 1 true []) = [.void] ∧
    encSeenAt { quiet with encRst := true } (encAt .light 1 false [.data 1]) = [.void] ∧
    encSeenAt willing (encAt .light 1 false [.data 1]) = [.word 0x001] ∧
    encSeenAt quiet (encAt .light 1 false [.data 1]) = [] := by decide

/-- R242: `valid` dropped before the beat. -/
theorem test_step_broken_offer :
    refusal? (step { encAt .dark 0 false [.eof] with
        encIn := [0x000], encHeld := some 0x000, schedule := [quiet] })
    = some (.portDiscipline .encIn) := by decide

/-- The word a tool places is the one the next step runs, on either port. -/
theorem test_fetch_word :
    encView (step (State.reset.withFetchWord 16 0x0FF)) = some (⟨.light, 1, false⟩, [.data 0]) ∧
    decView (step (State.reset.withFetchWord 16 0x203)) = some (.light, .dark, 3, false) := by decide

/-! ### Witnesses: concrete states and operands that meet each statement's hypotheses -/

theorem witness_EncodeThenDecodeGivesTheOperation :
    ∃ i : Instr, i = .encPixbad 254 ∧ i.wellFormed = true := ⟨_, rfl, by decide⟩

theorem witness_SymbolRangesSelectTheOperations :
    (0x001 : PortWord) ≤ 0x001 ∧ (0x001 : PortWord) ≤ 0x0FE ∧ (0x0FE : PortWord) ≤ 0x0FE ∧
    (0x100 : PortWord) ≤ 0x1FF ∧ (0x0FF : PortWord) ≤ 0x0FF := by decide

theorem witness_PortWordsCarrySymbols : symEof 0x1AB = true ∧ symEof 0x0FF = false := by decide

theorem witness_DarkPixelContinuesSpillsOrBreaks :
    (∃ s : State, s.enc.err = true) ∧
    (∃ s : State, s.encPend = [] ∧ s.enc.err = false ∧ s.enc.pol = .dark ∧ s.enc.cnt.toNat < 255) ∧
    (∃ s : State, s.encPend = [] ∧ s.enc.err = false ∧ s.enc.pol = .dark ∧ s.enc.cnt.toNat = 255) ∧
    (∃ s : State, s.encPend = [] ∧ s.enc.err = false ∧ s.enc.pol = .light ∧ s.enc.Inv) :=
  ⟨⟨encAt .dark 0 true [], by decide⟩, ⟨encAt .dark 254 false [], by decide⟩,
    ⟨encAt .dark 255 false [], by decide⟩,
    ⟨encAt .light 1 false [], by decide, by decide, by decide, fun h => absurd h (by decide)⟩⟩

theorem witness_LightPixelContinuesSpillsOrBreaks :
    (∃ s : State, s.enc.err = true) ∧
    (∃ s : State, s.encPend = [] ∧ s.enc.err = false ∧ s.enc.pol = .light ∧ s.enc.cnt.toNat < 255) ∧
    (∃ s : State, s.encPend = [] ∧ s.enc.err = false ∧ s.enc.pol = .light ∧ s.enc.cnt.toNat = 255) ∧
    (∃ s : State, s.encPend = [] ∧ s.enc.err = false ∧ s.enc.pol = .dark) :=
  ⟨⟨encAt .dark 0 true [], by decide⟩, ⟨encAt .light 254 false [], by decide⟩,
    ⟨encAt .light 255 false [], by decide⟩, ⟨encAt .dark 0 false [], by decide⟩⟩

theorem witness_InvalidPixelEntersTheFaultState :
    (∃ b : Byte, b ≠ 0 ∧ b ≠ 255) ∧ (∃ s : State, s.enc.err = true) ∧
    (∃ s t : State, s.encPend = [] ∧ s.enc.err = false ∧
      t = { s with enc := { pol := s.enc.pol, cnt := s.enc.cnt, err := true }, encPend := [] }) :=
  ⟨⟨254, by decide⟩, ⟨encAt .light 1 true [], by decide⟩, ⟨State.reset, _, by decide, by decide, rfl⟩⟩

theorem witness_EofEmitsTheLastRunAndTheMarker :
    (∃ s : State, s.enc.err = true) ∧ (∃ s : State, s.encPend = [] ∧ s.enc.err = false) :=
  ⟨⟨encAt .light 1 true [], by decide⟩, ⟨encAt .light 255 false [], by decide⟩⟩

theorem witness_RunLoadsTheByteAndFlipsThePolarity :
    ∃ (n : Byte) (s t : State), s.decRem = 0 ∧ s.decPendEof = false ∧
      t = { s with decRunPol := s.decPol, decRem := n, decPol := s.decPol.flip } :=
  ⟨255, State.reset, _, by decide, by decide, rfl⟩

theorem witness_DecEofMakesTheMarkerPending :
    ∃ s t : State, s.decRem = 0 ∧ s.decPendEof = false ∧
      t = { s with decPendEof := true, decPol := .dark } :=
  ⟨decAt .light .light 0 false, _, by decide, by decide, rfl⟩

theorem witness_FrameOperationGivesTheFraming :
    (1 ≤ 1 ∧ 1 ≤ 255) ∧ (1 ≤ 255 ∧ 255 ≤ 255) ∧ 255 < 256 := by decide

theorem witness_UnframeOperationGivesTheLengthOrIsRefused :
    (∃ bs : List Byte, frame (byteSum bs) = bs) ∧ (∃ bs : List Byte, frame (byteSum bs) ≠ bs) :=
  ⟨⟨[255, 0, 1], by decide⟩, ⟨[255, 0], by decide⟩⟩

theorem witness_ABlockThatIsNotReadyPerformsNoOperation :
    (∃ s : State, s.encPend ≠ [] ∨ s.enc.err = true) ∧ (∃ s : State, s.decRem ≠ 0 ∨ s.decPendEof = true) :=
  ⟨⟨encAt .dark 1 false [.eof], by decide⟩, ⟨decAt .dark .dark 1 false, by decide⟩⟩

theorem witness_OnlyPixbadSetsAndOnlyResetClearsTheFaultFlag :
    (∃ (i : Instr) (s t : State), exec i s = .next t ∧ s.enc.err = false ∧ t.enc.err = true) ∧
    (∃ (i : Instr) (s t : State), exec i s = .next t ∧ s.enc.err = true ∧ t.enc.err = false) :=
  ⟨⟨.encPixbad 1, State.reset, _, rfl, by decide, by decide⟩,
    ⟨.encReset, encAt .dark 1 true [], _, rfl, by decide, by decide⟩⟩

theorem witness_OperationsKeepToTheirOwnBlock :
    ∃ (i : Instr) (s t : State), i = .frmEnc 300 ∧ exec i s = .next t := ⟨_, State.reset, _, rfl, rfl⟩

theorem witness_PortSignalsFollowTheRegisters :
    (∃ (s : State) (y : PortSymbol) (ys : List PortSymbol), s.encPend = y :: ys) ∧
    (∃ s : State, s.decRem ≠ 0) ∧ (∃ s : State, s.decRem = 0 ∧ s.decPendEof = true) :=
  ⟨⟨encAt .dark 1 false [.eof], _, _, rfl⟩, ⟨decAt .dark .dark 1 false, by decide⟩,
    ⟨decAt .dark .dark 0 true, by decide⟩⟩

theorem witness_NoBlockHasTwoBeatsAtOneEdge :
    (∃ e : Edge, e.encRst = true) ∧ (∃ e : Edge, e.decRst = true) :=
  ⟨⟨{ quiet with encRst := true }, rfl⟩, ⟨{ quiet with decRst := true }, rfl⟩⟩

/-- A state in which the HOST offers a symbol on each input port and both blocks can consume it. -/
def offered : State := { State.reset with encIn := [0x0FF], decIn := [0x003], schedule := [willing] }

theorem witness_StepRunsTheOperationDecodedOnEncIn :
    ∃ (s : State) (e : Edge) (es : List Edge) (w : PortWord) (ws : List PortWord),
      s.schedule = e :: es ∧ brokenOffer e s = none ∧ e.encRst = false ∧ e.encInValid = true ∧
      s.encIn = w :: ws ∧ s.encPend = [] ∧ s.enc.err = false ∧ decAction e s = .wait :=
  ⟨{ offered with decIn := [] }, willing, [], 0x0FF, [], by decide⟩

theorem witness_StepRunsTheOperationDecodedOnDecIn :
    ∃ (s : State) (e : Edge) (es : List Edge) (w : PortWord) (ws : List PortWord),
      s.schedule = e :: es ∧ brokenOffer e s = none ∧ e.decRst = false ∧ e.decInValid = true ∧
      s.linked = false ∧ s.decIn = w :: ws ∧ s.decRem = 0 ∧ s.decPendEof = false ∧
      encAction e s = .wait :=
  ⟨{ offered with encIn := [] }, willing, [], 0x003, [], by decide⟩

theorem witness_StepRunsBothBlocksAtOneEdge :
    ∃ (s : State) (e : Edge) (es : List Edge) (v w : PortWord) (vs ws : List PortWord),
      s.schedule = e :: es ∧ brokenOffer e s = none ∧
      e.encRst = false ∧ e.encInValid = true ∧ s.encIn = v :: vs ∧ s.encPend = [] ∧ s.enc.err = false ∧
      e.decRst = false ∧ e.decInValid = true ∧ s.linked = false ∧ s.decIn = w :: ws ∧ s.decRem = 0 ∧
      s.decPendEof = false :=
  ⟨offered, willing, [], 0x0FF, 0x003, [], [], by decide⟩

theorem witness_StepCarriesASymbolOverTheWire :
    (∃ (s : State) (e : Edge) (es : List Edge) (y : PortSymbol) (ys : List PortSymbol),
      s.schedule = e :: es ∧ brokenOffer e s = none ∧ e.encRst = false ∧ e.decRst = false ∧
      s.linked = true ∧ s.encPend = y :: ys ∧ s.decRem = 0 ∧ s.decPendEof = false) ∧
    (∃ (s : State) (e : Edge) (es : List Edge) (y : PortSymbol) (ys : List PortSymbol),
      s.schedule = e :: es ∧ brokenOffer e s = none ∧ e.encRst = false ∧ e.decRst = false ∧
      s.linked = true ∧ s.encPend = y :: ys ∧ (s.decRem ≠ 0 ∨ s.decPendEof = true)) :=
  ⟨⟨{ encAt .dark 0 false [.data 2, .eof] with linked := true, schedule := [willing] }, willing, [], .data 2, [.eof],
      by decide⟩,
    ⟨{ encAt .dark 0 false [.eof] with linked := true, decRem := 2, schedule := [quiet] }, quiet, [], .eof, [],
      by decide⟩⟩

theorem witness_EncOutputBeatDeliversTheHead :
    (∃ (s : State) (e : Edge) (es : List Edge) (y : PortSymbol) (ys : List PortSymbol),
      s.schedule = e :: es ∧ brokenOffer e s = none ∧ e.encRst = false ∧
      s.encPend = y :: ys ∧ encAccept e s = true) ∧
    (∃ (s : State) (e : Edge) (es : List Edge) (y : PortSymbol) (ys : List PortSymbol),
      s.schedule = e :: es ∧ brokenOffer e s = none ∧ e.encRst = false ∧
      s.encPend = y :: ys ∧ encAccept e s = false) :=
  ⟨⟨{ encAt .dark 0 false [.data 1, .eof] with schedule := [willing] }, willing, [], .data 1, [.eof], by decide⟩,
    ⟨{ encAt .dark 0 false [.eof] with schedule := [quiet] }, quiet, [], .eof, [], by decide⟩⟩

theorem witness_DecOutputBeatDeliversAPixelOrTheMarker :
    (∃ (s : State) (e : Edge) (es : List Edge),
      s.schedule = e :: es ∧ brokenOffer e s = none ∧ e.decRst = false ∧ e.decOutReady = true ∧
      s.decRem ≠ 0) ∧
    (∃ (s : State) (e : Edge) (es : List Edge),
      s.schedule = e :: es ∧ brokenOffer e s = none ∧ e.decRst = false ∧ e.decOutReady = true ∧
      s.decRem = 0 ∧ s.decPendEof = true) ∧
    (∃ (s : State) (e : Edge) (es : List Edge),
      s.schedule = e :: es ∧ brokenOffer e s = none ∧ e.decRst = false ∧ e.decOutReady = false ∧
      (s.decRem ≠ 0 ∨ s.decPendEof = true)) :=
  ⟨⟨{ decAt .dark .dark 255 false with schedule := [willing] }, willing, [], by decide⟩,
    ⟨{ decAt .dark .dark 0 true with schedule := [willing] }, willing, [], by decide⟩,
    ⟨{ decAt .dark .dark 1 false with schedule := [quiet] }, quiet, [], by decide⟩⟩

theorem witness_ResetWinsOverEverythingAtItsEdge :
    ∃ (s : State) (e : Edge) (es : List Edge), s.schedule = e :: es ∧ brokenOffer e s = none ∧
      e.encRst = true ∧ e.decRst = true :=
  ⟨{ offered with schedule := [{ willing with encRst := true, decRst := true }] },
    { willing with encRst := true, decRst := true }, [], by decide⟩

theorem witness_ABrokenOfferIsRefused :
    (∃ (s : State) (e : Edge) (es : List Edge) (w : PortWord),
      s.schedule = e :: es ∧ s.encHeld = some w ∧ encOffer e s ≠ some w) ∧
    (∃ (s : State) (e : Edge) (es : List Edge) (w : PortWord),
      s.schedule = e :: es ∧ s.linked = false ∧ s.decHeld = some w ∧
      decOffer e s ≠ some w) :=
  ⟨⟨{ offered with encHeld := some 0x0FF, schedule := [quiet] }, quiet, [], 0x0FF, by decide⟩,
    ⟨{ offered with decHeld := some 0x003, schedule := [quiet] }, quiet, [], 0x003, by decide⟩⟩

theorem witness_StepStopsOnlyOnABrokenOffer :
    (∃ s : State, s.schedule = []) ∧
    (∃ (s : State) (e : Edge) (es : List Edge), s.schedule = e :: es ∧ brokenOffer e s = none) ∧
    (∃ (s : State) (r : Refusal), refusal? (step s) = some r) :=
  ⟨⟨State.reset, rfl⟩, ⟨offered, willing, [], by decide⟩,
    ⟨{ offered with encHeld := some 0x0FF, schedule := [quiet] }, .portDiscipline .encIn, by decide⟩⟩

theorem witness_BlocksDoNotInterfere :
    ∃ (s₁ s₂ : State) (e₁ e₂ : Edge) (es₁ es₂ : List Edge),
      s₁.schedule = e₁ :: es₁ ∧ s₂.schedule = e₂ :: es₂ ∧ s₁.linked = false ∧ s₂.linked = false ∧
      (next? (step s₁)).isSome = true ∧ (next? (step s₂)).isSome = true ∧
      e₁.decRst = e₂.decRst ∧ e₁.decInValid = e₂.decInValid ∧ e₁.decOutReady = e₂.decOutReady ∧
      s₁.decPol = s₂.decPol ∧ s₁.decRunPol = s₂.decRunPol ∧ s₁.decRem = s₂.decRem ∧
      s₁.decPendEof = s₂.decPendEof ∧ s₁.decIn = s₂.decIn ∧ s₁.decOut = s₂.decOut ∧
      s₁.enc ≠ s₂.enc ∧ e₁.encRst ≠ e₂.encRst :=
  ⟨offered, { offered with enc := ⟨.light, 9, true⟩, schedule := [{ willing with encRst := true }] },
    willing, { willing with encRst := true }, [], [], by decide⟩

theorem witness_BlocksDoNotInterfere_enc :
    ∃ (s₁ s₂ : State) (e₁ e₂ : Edge) (es₁ es₂ : List Edge),
      s₁.schedule = e₁ :: es₁ ∧ s₂.schedule = e₂ :: es₂ ∧ s₁.linked = false ∧ s₂.linked = false ∧
      (next? (step s₁)).isSome = true ∧ (next? (step s₂)).isSome = true ∧
      e₁.encRst = e₂.encRst ∧ e₁.encInValid = e₂.encInValid ∧ e₁.encOutReady = e₂.encOutReady ∧
      s₁.enc = s₂.enc ∧ s₁.encPend = s₂.encPend ∧ s₁.encIn = s₂.encIn ∧ s₁.encOut = s₂.encOut ∧
      s₁.decPol ≠ s₂.decPol ∧ e₁.decRst ≠ e₂.decRst :=
  ⟨offered, { offered with decPol := .light, schedule := [{ willing with decRst := true }] },
    willing, { willing with decRst := true }, [], [], by decide⟩

/-- A state of the fault, as the invariants allow it. -/
def faulted : State := { encAt .light 1 true [] with schedule := [willing] }

theorem faulted_inv : faulted.Inv :=
  ⟨fun h => absurd h (by decide), by decide, fun _ => rfl, by decide, by simp [faulted, encAt, State.reset, drivenWords],
    by simp [faulted, encAt, State.reset]⟩

theorem witness_EveryStepKeepsTheInvariants :
    ∃ s : State, s.Inv ∧ (next? (step s)).isSome = true := ⟨faulted, faulted_inv, by decide⟩

theorem witness_OnlyResetLeavesTheFaultState :
    (∃ (s : State) (e : Edge) (es : List Edge), s.Inv ∧ s.enc.err = true ∧ s.schedule = e :: es ∧
      (next? (step s)).isSome = true ∧ e.encRst = false) ∧
    (∃ (s : State) (e : Edge) (es : List Edge), s.Inv ∧ s.enc.err = true ∧ s.schedule = e :: es ∧
      (next? (step s)).isSome = true ∧ e.encRst = true) :=
  ⟨⟨faulted, willing, [], faulted_inv, by decide⟩,
    ⟨{ faulted with schedule := [{ willing with encRst := true }] }, { willing with encRst := true }, [],
      faulted_inv, by decide⟩⟩

theorem witness_FrameHasTheClosedForm :
    (1 ≤ 510 ∧ 510 % 255 = 0) ∧ (1 ≤ 511 ∧ 511 % 255 ≠ 0) ∧ 1 ≤ 1 := by decide

theorem witness_UnframeUndoesFrame :
    (∃ k len : Nat, frame k = frame len) ∧ (∃ (bs : List Byte) (len : Nat), unframe bs = some len) :=
  ⟨⟨256, 256, rfl⟩, ⟨[255, 0, 1], 256, by decide⟩⟩

theorem witness_FrameByteCount : (1 ≤ 255 ∧ 255 % 255 = 0) ∧ (1 ≤ 256 ∧ 256 % 255 ≠ 0) := by decide

theorem witness_valid_pixel_streams :
    (∃ ps : List Byte, ps = [] ∧ validPixels ps = true) ∧
    (∃ ps : List Byte, ps = [255, 0, 0] ∧ validPixels ps = true) := ⟨⟨_, rfl, by decide⟩, ⟨_, rfl, by decide⟩⟩

theorem witness_encoded_frames :
    (∃ (ps : List Byte) (bs : List Byte), ps = [] ∧ encodeFrame ps = .bytes bs) ∧
    (∃ (ps : List Byte) (bs : List Byte), ps = [255, 0, 0] ∧ encodeFrame ps = .bytes bs) :=
  ⟨⟨_, [0], rfl, by decide⟩, ⟨_, [0, 1, 2], rfl, by decide⟩⟩

theorem witness_ReencodingGivesTheCanonicalForm : ∃ bs : List Byte, bs = [5] ∧ Canonical bs :=
  ⟨_, rfl, by simp, by simp, by simp⟩

theorem witness_DecodingAConcatenationInvertsAfterAnOddPart :
    (∃ bs : List Byte, bs = [3, 2] ∧ bs.length % 2 = 0) ∧ (∃ bs : List Byte, bs = [3, 2, 1] ∧ bs.length % 2 = 1) :=
  ⟨⟨_, rfl, by decide⟩, ⟨_, rfl, by decide⟩⟩

theorem witness_EncoderWithholdsTheLastByteAndStopsAtAnInvalidPixel :
    ∃ (ps : List Byte) (b : Byte), ps = [0, 255] ∧ validPixels ps = true ∧ b ≠ 0 ∧ b ≠ 255 :=
  ⟨_, 128, rfl, by decide⟩

/-- The empty frame (P8) at ENC and at DEC: the marker commits what the HOST has received. -/
theorem witness_OnlyTheMarkerCommitsAFrame :
    (∃ (n : Nat) (s : State), s.enc = EncRegs.reset ∧ s.encPend = [] ∧ encCommitted n s = [0x000, 0x100]) ∧
    (∃ (n : Nat) (s : State), s.decPol = .dark ∧ s.decRem = 0 ∧ s.decPendEof = false ∧ s.linked = false ∧
      decCommitted n s = [0x100]) :=
  ⟨⟨3, { State.reset with encIn := [0x100], schedule := List.replicate 3 willing }, by decide⟩,
    ⟨3, { State.reset with decIn := [0x000, 0x100], schedule := List.replicate 3 willing }, by decide⟩⟩

theorem witness_EncoderDeliversTheLevelOOutputUnderEverySchedule :
    ∃ (n : Nat) (s : State), n = 1 ∧ (∀ e ∈ s.schedule.take n, e.encRst = false) ∧
      (next? (runSteps n s)).isSome = true := ⟨1, offered, rfl, by decide, by decide⟩

theorem witness_DecoderDeliversTheLevelOOutputUnderEverySchedule :
    ∃ (n : Nat) (s : State), n = 1 ∧ s.linked = false ∧ (∀ e ∈ s.schedule.take n, e.decRst = false) ∧
      (next? (runSteps n s)).isSome = true := ⟨1, offered, rfl, by decide, by decide, by decide⟩

/-- The frame `[0]` through the wired blocks, with edges enough: input, marker, byte, pixel, marker, marker. -/
theorem witness_WiredBlocksGiveBackTheFrames :
    ∃ (fs : List (List Byte × Byte)) (plan : List Edge) (n : Nat),
      (∀ f ∈ fs, validPixels f.1 = true) ∧ (∀ e ∈ plan, e.encRst = false ∧ e.decRst = false) ∧
      (next? (runSteps n
          { State.reset with
            encIn := fs.flatMap fun f => dataWords f.1 ++ [eofWord f.2], linked := true, schedule := plan })).map
        (fun t => ((t.encIn, t.encPend, t.enc.err), t.decRem, t.decPendEof, t.decOut))
      = some (([], [], false), 0, false, [0x000, 0x100]) :=
  ⟨[([0], 0xAB)], List.replicate 6 willing, 6, by decide, by decide, by decide⟩

theorem witness_AWillingHostDrainsTheEncoder :
    ∃ (s : State) (n : Nat), s.linked = false ∧ s.encHeld = none ∧ s.decHeld = none ∧
      s.schedule = List.replicate n { quiet with encInValid := true, encOutReady := true } ∧
      3 * s.encIn.length + s.encPend.length ≤ n ∧ s.encIn ≠ [] :=
  ⟨{ State.reset with
      encIn := [0x100], schedule := List.replicate 3 { quiet with encInValid := true, encOutReady := true } },
    3, by decide⟩

theorem witness_AWillingHostDrainsTheDecoder :
    ∃ (s : State) (n : Nat), s.linked = false ∧ s.encHeld = none ∧ s.decHeld = none ∧
      s.schedule = List.replicate n { quiet with decInValid := true, decOutReady := true } ∧
      256 * s.decIn.length + s.decPending.length ≤ n ∧ s.decPending ≠ [] :=
  ⟨{ decAt .dark .dark 2 false with
      schedule := List.replicate 2 { quiet with decInValid := true, decOutReady := true } }, 2, by decide⟩

end Sys2Proof.Tests
end

section
/-! PROOFS. The family `10_state.md`: what the ports show of a block that can consume a symbol, and the state after
reset. -/

namespace Sys2Proof.Machine

/-- R51, R32: ENC able to consume a symbol, with its reset signal at 0, shows itself ready, with nothing to deliver
and no fault. -/
theorem encPorts_of_encReady {s : State} (h : s.encReady = true) :
    encInReady false s = true ∧ encOutValid false s = false ∧ encErrWire s = false := by
  obtain ⟨hpend, herr⟩ := (encReady_iff s).1 h
  exact ⟨by simp [encInReady, h], by simp [encOutValid, hpend], herr⟩

/-- R51: DEC able to consume a symbol, with its reset signal at 0, shows itself ready, with nothing to deliver. -/
theorem decPorts_of_decReady {s : State} (h : s.decReady = true) :
    decInReady false s = true ∧ decOutValid false s = false := by
  simp [decInReady, decOutValid, h]

/-- After reset nothing is pending in ENC and its fault flag is clear (R37). -/
@[simp] theorem encReady_reset : State.reset.encReady = true := (encReady_iff _).2 ⟨rfl, rfl⟩

/-- After reset DEC has no run and no marker left to deliver (R37). -/
@[simp] theorem decReady_reset : State.reset.decReady = true := (decReady_iff _).2 ⟨rfl, rfl⟩

/-- Settles O29: the registers are the fields of `State.reset`, and the ports are those of two blocks that can each
consume a symbol. -/
theorem stateAfterReset : Obligations.StateAfterReset := by
  obtain ⟨hEncIn, hEncOut, hErr⟩ := encPorts_of_encReady encReady_reset
  obtain ⟨hDecIn, hDecOut⟩ := decPorts_of_decReady decReady_reset
  exact ⟨rfl, rfl, rfl, rfl, rfl, rfl, hEncIn, hEncOut, hErr, hDecIn, hDecOut⟩

end Sys2Proof.Machine
end

section
/-! PROOFS. The family `20_memory.md`: the two blocks wired together (R64). The proof is a conserved quantity. Where
no block is reset, an edge splits what ENC has still to send over the wire into the word that passes now and what is
left, and DEC adds to what it has produced the Level O output of that same word; so what `dec_out` carries in the end
is the same in every state of a run, and at reset it is the frames that were offered. -/

namespace Sys2Proof.Machine

/-! ### Runs of many steps -/

@[simp] theorem runSteps_zero (s : State) : runSteps 0 s = .next s := rfl

/-- A run of one step more is a step and the run from there. -/
theorem runSteps_succ (n : Nat) (s : State) : runSteps (n + 1) s = andThen (step s) (runSteps n) := by
  have hcore : Sys2Proof.core.step s = step s := rfl
  simp only [runSteps, Host.Core.run, hcore]
  cases step s <;> rfl

/-- What every step keeps, every run keeps. -/
theorem runSteps_keeps {P : State → Prop} (hstep : ∀ s t, P s → step s = .next t → P t) {n : Nat} {s t : State}
    (hs : P s) (h : runSteps n s = .next t) : P t := by
  induction n generalizing s with
  | zero =>
    cases h
    exact hs
  | succ n ih =>
    rw [runSteps_succ] at h
    obtain ⟨u, hu, hut⟩ := andThen_eq_next.1 h
    exact ih (hstep s u hs hu) hut

/-! ### What passes at an edge -/

/-- The symbol that passes on `enc_out` at this edge (R51). -/
def encOutWord (e : Edge) (s : State) : Option PortWord :=
  if encOutBeat e s then encOutSym e.encRst s else none

/-- R64: where the blocks are wired together, `enc_out` and `dec_in` are one wire: the symbol that passes on the one
is the symbol that passes on the other. -/
theorem decInBeat_of_linked {s : State} (hl : s.linked = true) (e : Edge) :
    decInBeat e s = encOutWord e s := by
  cases hv : encOutValid e.encRst s <;>
    simp [decInBeat, decOffer, encOutWord, encOutBeat, encAccept, encOutSym, hl, hv]

/-- The words ENC has still to send if it goes on with the symbols of its stream: those pending, and the Level O
output for what it has not consumed. -/
def State.encToSend (s : State) : List PortWord :=
  (s.encPend ++ (encRun s.enc s.encIn).out).map PortSymbol.bits

/-- An edge at which ENC is not reset takes from what ENC has to send the word that passes on `enc_out`. -/
theorem encToSend_step {s t : State} {e : Edge} {es : List Edge} (hs : s.schedule = e :: es)
    (hr : e.encRst = false) (h : step s = .next t) :
    s.encToSend = (encOutWord e s).toList ++ t.encToSend := by
  obtain ⟨hnil, -⟩ | ⟨e', es', hs', -, -, hcase⟩ := step_enc_cases h
  · simp [hs] at hnil
  obtain ⟨rfl, rfl⟩ : e = e' ∧ es = es' := by simpa [hs] using hs'
  obtain ⟨hreset, -⟩ | ⟨-, hpend, herr, w, hin, henc, hpend', -⟩ | ⟨-, hacc, y, hpend, henc, hin, -⟩ |
    ⟨-, henc, hpend, hin, -, -, hacc⟩ := hcase
  case inl => simp [hr] at hreset
  case inr.inl =>
    have hword : encOutWord e s = none := by simp [encOutWord, encOutBeat, encOutValid, hpend]
    simp [State.encToSend, hword, hpend, hpend', hin, henc, encRun_cons herr]
  case inr.inr.inl =>
    have hword : encOutWord e s = some y.bits := by
      simp [encOutWord, encOutBeat, encOutValid, encOutSym, hpend, hr, hacc]
    simp [State.encToSend, hword, hpend, henc, hin]
  case inr.inr.inr =>
    have hword : encOutWord e s = none := by
      by_cases hp : s.encPend = []
      · simp [encOutWord, encOutBeat, encOutValid, hp]
      · simp [encOutWord, encOutBeat, hacc hp]
    simp [State.encToSend, hword, hpend, henc, hin]

/-- What DEC has pending is read off three of its registers. -/
theorem decPending_congr {s t : State} (hpol : t.decRunPol = s.decRunPol) (hrem : t.decRem = s.decRem)
    (heof : t.decPendEof = s.decPendEof) : t.decPending = s.decPending := by
  simp [State.decPending, hpol, hrem, heof]

theorem decDeliver_decRunPol (s : State) : s.decDeliver.decRunPol = s.decRunPol := by
  unfold State.decDeliver
  split <;> [skip; split] <;> rfl

/-- An output beat of DEC moves a symbol from what is pending to what is delivered. -/
theorem decProduced_decDeliver {s : State} (h : s.decReady = false) : s.decDeliver.decProduced = s.decProduced := by
  obtain ⟨y, hpending, hout, -⟩ := decPending_decDeliver h
  simp [State.decProduced, hpending, hout]

/-- An edge at which DEC is not reset adds to what DEC has produced the Level O output of the word that passes on
`dec_in`, wherever that word comes from. -/
theorem decProduced_step {s t : State} {e : Edge} {es : List Edge} (hs : s.schedule = e :: es)
    (hr : e.decRst = false) (h : step s = .next t) :
    t.decPol = (decRun s.decPol (decInBeat e s).toList).1 ∧
    t.decProduced = s.decProduced ++ (decRun s.decPol (decInBeat e s).toList).2.map PortSymbol.bits := by
  obtain ⟨hnil, -⟩ | ⟨e', es', hs', hcase⟩ := step_dec_cases h
  · simp [hs] at hnil
  obtain ⟨rfl, rfl⟩ : e = e' ∧ es = es' := by simpa [hs] using hs'
  obtain ⟨hreset, -⟩ | ⟨-, hready, w, hoffer, hpol, hrunPol, hrem, heof, -, hout⟩ |
    ⟨-, hready, -, hpol, hrunPol, hrem, heof, -, hout⟩ | ⟨-, hpol, hrunPol, hrem, heof, -, hout, hoffer, -⟩ := hcase
  case inl => simp [hr] at hreset
  case inr.inl =>
    have hbeat : decInBeat e s = some w := by simp [decInBeat, decInReady, hready, hr, hoffer]
    have hpending : t.decPending = (decOp (decodeDecIn w) s.decPol).2 :=
      (decPending_congr hrunPol hrem heof).trans (decPending_decLoad hready w)
    simp [hbeat, hpol, decPol_decLoad, State.decProduced, hpending, hout, (decPending_eq_nil s).2 hready]
  case inr.inr.inl =>
    have hbeat : decInBeat e s = none := by simp [decInBeat, decInReady, hready]
    have hpending : t.decPending = s.decDeliver.decPending :=
      decPending_congr (hrunPol.trans (decDeliver_decRunPol s).symm) hrem heof
    have hproduced : t.decProduced = s.decProduced := by
      rw [← decProduced_decDeliver hready]
      simp [State.decProduced, hpending, hout]
    simp [hbeat, hpol, hproduced]
  case inr.inr.inr =>
    have hbeat : decInBeat e s = none := by
      cases hready : s.decReady
      · simp [decInBeat, decInReady, hready]
      · simp [decInBeat, hoffer hready]
    simp [hbeat, hpol, State.decProduced, hout, decPending_congr hrunPol hrem heof]

/-! ### The conserved quantity -/

/-- What `dec_out` carries in the end where the blocks are wired together: what DEC has produced, and the Level O
output of all that ENC has still to send. -/
def State.wiredOut (s : State) : List PortWord :=
  s.decProduced ++ (decRun s.decPol s.encToSend).2.map PortSymbol.bits

/-- The blocks are wired together, no block is reset at an edge to come, and `out` is what `dec_out` carries in the
end. -/
def State.WiredTo (out : List PortWord) (s : State) : Prop :=
  s.linked = true ∧ (∀ e ∈ s.schedule, e.encRst = false ∧ e.decRst = false) ∧ s.wiredOut = out

/-- An edge without resets leaves what `dec_out` carries in the end as it is: the word ENC sends is the word DEC
expands. -/
theorem wiredOut_step {s t : State} {e : Edge} {es : List Edge} (hl : s.linked = true)
    (hs : s.schedule = e :: es) (hr : e.encRst = false ∧ e.decRst = false) (h : step s = .next t) :
    t.wiredOut = s.wiredOut := by
  obtain ⟨hpol, hproduced⟩ := decProduced_step hs hr.2 h
  have hsend := encToSend_step hs hr.1 h
  rw [← decInBeat_of_linked hl] at hsend
  simp [State.wiredOut, hsend, decRun_append, hpol, hproduced]

theorem wiredTo_step {out : List PortWord} (s t : State) (hw : s.WiredTo out) (h : step s = .next t) :
    t.WiredTo out := by
  obtain ⟨hl, hrst, hout⟩ := hw
  obtain ⟨-, rfl⟩ | ⟨e, es, hs, hes, hlinked, -⟩ := step_enc_cases h
  · exact ⟨hl, hrst, hout⟩
  · rw [hs] at hrst
    obtain ⟨hre, hres⟩ := List.forall_mem_cons.1 hrst
    exact ⟨hlinked.trans hl, hes ▸ hres, (wiredOut_step hl hs hre h).trans hout⟩

/-- What `dec_out` has carried so far is the beginning of what it carries in the end. -/
theorem decOut_begins_wiredOut (s : State) : s.decOut <+: s.wiredOut :=
  ⟨_, (List.append_assoc _ _ _).symm⟩

/-- With nothing left to do it has carried the whole. -/
theorem decOut_of_finished {s : State} (h : s.finished) : s.decOut = s.wiredOut := by
  obtain ⟨hin, hpend, -, hrem, heof, -⟩ := h
  simp [State.wiredOut, State.encToSend, State.decProduced, State.decPending, hin, hpend, hrem, heof]

/-! ### DEC undoes ENC, frame after frame (Level O) -/

/-- The pixels ENC has counted and not yet emitted, as DEC will give them back. -/
def EncRegs.owed (r : EncRegs) : List PortSymbol := List.replicate r.cnt.toNat (.data r.pol.level)

@[simp] theorem owed_reset : EncRegs.reset.owed = [] := rfl

/-- The two bytes of a spill are 255 pixels, and leave DEC's polarity as it was (R54). -/
theorem decRun_spill (pol : Polarity) :
    decRun pol ([.data 255, .data 0].map PortSymbol.bits) = (pol, List.replicate 255 (.data pol.level)) := by
  have h255 : BitVec.toNat (255 : Byte) = 255 := rfl
  have h0 : BitVec.toNat (0 : Byte) = 0 := rfl
  simp only [List.map_cons, List.map_nil, bits_data, decRun_cons, decRun_nil, decodeDecIn_dataWord, decOp,
    Polarity.flip_flip, h255, h0, List.replicate_zero, List.append_nil]

/-- What ENC emits at a pixel, read by DEC in ENC's polarity, takes DEC to ENC's new polarity; and the pixels DEC gives
for it, with those ENC then owes, are those ENC owed before and the new one. -/
theorem decRun_encPixel (p : Polarity) (r : EncRegs) :
    (decRun r.pol ((encPixel p r).2.map PortSymbol.bits)).1 = (encPixel p r).1.pol ∧
    (decRun r.pol ((encPixel p r).2.map PortSymbol.bits)).2 ++ (encPixel p r).1.owed
      = r.owed ++ [.data p.level] := by
  by_cases hp : r.pol = p
  · by_cases hc : r.cnt.toNat < 255
    · have hsucc : r.cnt.toNat + 1 < 256 := by omega
      simp [encPixel_continue hp hc, EncRegs.owed, hp, Nat.mod_eq_of_lt hsucc, List.replicate_succ']
    · have hcnt : r.cnt.toNat = 255 := by omega
      rw [encPixel_spill hp hcnt, decRun_spill, EncRegs.owed, EncRegs.owed, hcnt, hp]
      exact ⟨rfl, rfl⟩
  · simp [encPixel_break hp, bits_data, decOp, EncRegs.owed, Polarity.flip_of_ne hp]

/-- What ENC emits at a marker, read by DEC in ENC's polarity, is the pixels ENC owed and the marker. -/
theorem decRun_encEndFrame (r : EncRegs) :
    decRun r.pol ((encEndFrame r).2.map PortSymbol.bits) = (.dark, r.owed ++ [.eof]) := by
  simp [encEndFrame, bits_data, bits_eof, decOp, EncRegs.owed]

/-- At a marker ENC is back at the start of a frame. -/
theorem encEndFrame_regs {r : EncRegs} (h : r.err = false) : (encEndFrame r).1 = EncRegs.reset := by
  simp [encEndFrame, EncRegs.reset, h]

/-- The rest of a valid frame, from within it: ENC ends in its reset state with every symbol consumed, and DEC reads
from what ENC emits the pixels ENC owed, the pixels of the rest and the marker. -/
theorem decRun_encRun_frame {ps : List Byte} (hv : validPixels ps = true) (d : Byte) {r : EncRegs}
    (herr : r.err = false) :
    (encRun r (dataWords ps ++ [eofWord d])).regs = EncRegs.reset ∧
    (encRun r (dataWords ps ++ [eofWord d])).rest = [] ∧
    decRun r.pol ((encRun r (dataWords ps ++ [eofWord d])).out.map PortSymbol.bits)
      = (.dark, r.owed ++ ps.map .data ++ [.eof]) := by
  induction ps generalizing r with
  | nil =>
    have hnil : dataWords [] ++ [eofWord d] = [eofWord d] := rfl
    rw [hnil, encRun_cons herr, encOp_eof, encEndFrame_regs herr]
    exact ⟨rfl, rfl, by simpa using decRun_encEndFrame r⟩
  | cons b ps ih =>
    obtain ⟨hb, hps⟩ : validPixel b = true ∧ validPixels ps = true := by simpa [validPixels] using hv
    obtain ⟨p, rfl⟩ := validPixel_iff.1 hb
    obtain ⟨hregs, hrest, hout⟩ := ih hps ((encPixel_err p r).trans herr)
    obtain ⟨hpol, howed⟩ := decRun_encPixel p r
    have hcons : dataWords (p.level :: ps) ++ [eofWord d]
        = dataWord p.level :: (dataWords ps ++ [eofWord d]) := rfl
    rw [hcons, encRun_cons herr, encOp_level]
    refine ⟨hregs, hrest, ?_⟩
    rw [List.map_append, decRun_append, hpol, hout, ← List.append_assoc, ← List.append_assoc, howed]
    simp

/-- R180 on a stream of valid frames, from both blocks' reset states: DEC reads from what ENC emits the frames, every
marker as `0x100`. -/
theorem decRun_encRun_frames (fs : List (List Byte × Byte)) (hv : ∀ f ∈ fs, validPixels f.1 = true) :
    (decRun .dark ((encRun EncRegs.reset
        (fs.flatMap fun f => dataWords f.1 ++ [eofWord f.2])).out.map PortSymbol.bits)).2.map PortSymbol.bits
      = fs.flatMap fun f => frameWords f.1 := by
  induction fs with
  | nil => rfl
  | cons f fs ih =>
    obtain ⟨hf, hfs⟩ := List.forall_mem_cons.1 hv
    obtain ⟨hregs, hrest, hout⟩ := decRun_encRun_frame hf f.2 (r := EncRegs.reset) rfl
    have hpol : EncRegs.reset.pol = .dark := rfl
    rw [hpol] at hout
    rw [List.flatMap_cons, encRun_append _ _ _ hrest, hregs, List.map_append, decRun_append, hout, List.map_append,
      ih hfs]
    simp [frameWords, dataWords, Function.comp_def, bits_data]

/-- From reset with the blocks wired together, `dec_out` carries in the end the Level O output of DEC for the Level O
output of ENC. -/
theorem wiredOut_reset (ws : List PortWord) (plan : List Edge) :
    State.wiredOut { State.reset with encIn := ws, linked := true, schedule := plan }
      = (decRun .dark ((encRun EncRegs.reset ws).out.map PortSymbol.bits)).2.map PortSymbol.bits := by
  simp [State.wiredOut, State.encToSend, State.decProduced, State.decPending, State.reset]

/-- Settles O58: what `dec_out` carries in the end is the same after every step, at reset it is the frames offered, and
what has been delivered is its beginning, or the whole where nothing is left to do. -/
theorem wiredBlocksGiveBackTheFrames : Obligations.WiredBlocksGiveBackTheFrames := by
  unfold Obligations.WiredBlocksGiveBackTheFrames
  intro fs plan n t hv hplan hrun
  obtain ⟨-, -, hout⟩ : t.WiredTo (fs.flatMap fun f => frameWords f.1) :=
    runSteps_keeps wiredTo_step ⟨rfl, hplan, (wiredOut_reset _ plan).trans (decRun_encRun_frames fs hv)⟩ hrun
  rw [← hout]
  exact ⟨decOut_begins_wiredOut t, decOut_of_finished⟩

end Sys2Proof.Machine
end

section
/-! PROOFS. The family `30_encoding.md`: the nine bits of a port symbol, in both directions (R80). -/

namespace Sys2Proof

/-- R80: on an input port the `eof` bit alone makes the marker; the data bits are ignored. -/
theorem ofBits_of_symEof {w : PortWord} (h : symEof w = true) : PortSymbol.ofBits w = .eof := if_pos h

/-- R80: with the `eof` bit at 0 the symbol is `DATA` of the data bits. -/
theorem ofBits_of_not_symEof {w : PortWord} (h : symEof w = false) : PortSymbol.ofBits w = .data (symData w) :=
  if_neg (Bool.eq_false_iff.1 h)

/-- Settles O6: the fields of the words `dataWord` and `eofWord` make, and the two cases of the `eof` bit on an input
port. -/
theorem portWordsCarrySymbols : Obligations.PortWordsCarrySymbols := by
  unfold Obligations.PortWordsCarrySymbols
  refine ⟨bits_eof, fun b => ?data, fun _ => ofBits_of_symEof, fun _ => ofBits_of_not_symEof, fun d => ?marker⟩
  case data =>
    rw [bits_data]
    exact ⟨symEof_dataWord b, symData_dataWord b⟩
  case marker => exact ⟨symEof_eofWord d, symData_eofWord d⟩

end Sys2Proof
end

section
/-! PROOFS. The family `40_encoder.md`: the size and the last byte of an encoded frame (R120), and what a step does at
ENC's reset, input beat and output beat (R117, R118, R119). -/

namespace Sys2Proof

/-! ### The framing of one run -/

/-- The framing of a length above 0 is its continuation pairs and a terminal byte that is not 0 (R142). -/
theorem frame_pairs {k t : Nat} (h1 : 1 ≤ t) (h2 : t ≤ 255) :
    frame (255 * k + t) = contPairs k ++ [BitVec.ofNat 8 t] := by
  have hk : k ≤ (255 * k + t) / 255 := by omega
  rw [frame_eq_loop (by omega), frameLoop_pairs _ k t h1 h2 hk]

theorem frame_ne_nil (len : Nat) : frame len ≠ [] := by
  obtain rfl | ⟨k, t, rfl, h1, h2⟩ := length_split len
  · simp [frame]
  · simp [frame_pairs h1 h2]

/-- A framing has no more bytes than the run it stands for has pixels, one byte for length 0 apart. -/
theorem length_frame_le (len : Nat) : (frame len).length ≤ max len 1 := by
  obtain rfl | ⟨k, t, rfl, h1, h2⟩ := length_split len
  · simp [frame]
  · rw [frame_pairs h1 h2, List.length_append, length_contPairs, List.length_singleton]
    omega

/-- Only length 0 has a framing whose last byte is 0. -/
theorem getLast?_frame_eq_zero (len : Nat) : (frame len).getLast? = some 0 ↔ len = 0 := by
  obtain rfl | ⟨k, t, rfl, h1, h2⟩ := length_split len
  · simp [frame]
  · have hbyte : BitVec.ofNat 8 t ≠ 0 := fun h => by
      have := congrArg BitVec.toNat h
      simp at this
      omega
    have hlen : 255 * k + t ≠ 0 := by omega
    rw [frame_pairs h1 h2, List.getLast?_concat, Option.some_inj]
    exact iff_of_false hbyte hlen

/-! ### The scan -/

theorem Encoded.after_eq_bytes {fs bs : List Byte} {x : Encoded} :
    x.after fs = .bytes bs ↔ ∃ cs, x = .bytes cs ∧ bs = fs ++ cs := by
  cases x <;> simp [Encoded.after, eq_comm]

/-- What the first pixel of a scan that ends with bytes does: it continues the run, or it closes it. -/
theorem encodeFrom_cons_eq_bytes {pol : Polarity} {c : Nat} {p : Byte} {ps bs : List Byte}
    (h : encodeFrom pol c (p :: ps) = .bytes bs) :
    encodeFrom pol (c + 1) ps = .bytes bs ∨
    ∃ cs, encodeFrom pol.flip 1 ps = .bytes cs ∧ bs = frame c ++ cs := by
  cases hv : validPixel p
  · simp [encodeFrom_invalid pol c hv] at h
  obtain ⟨q, rfl⟩ := validPixel_iff.1 hv
  by_cases hq : pol = q
  · subst hq
    exact .inl (encodeFrom_continue pol c ps ▸ h)
  · rw [← Polarity.flip_of_ne hq, encodeFrom_break] at h
    exact .inr (Encoded.after_eq_bytes.1 h)

/-- An encoding ends with the framing of its last run, and the bytes before it leave room for that run's pixels. The
last run has length 0 only where the scan has counted no pixel. -/
theorem encodeFrom_eq_append_frame {pol : Polarity} {c : Nat} {ps bs : List Byte}
    (h : encodeFrom pol c ps = .bytes bs) :
    ∃ front last, bs = front ++ frame last ∧ front.length + max last 1 ≤ max c 1 + ps.length ∧
      (last = 0 ↔ c = 0 ∧ ps = []) := by
  induction ps generalizing pol c bs with
  | nil =>
    obtain rfl : frame c = bs := by simpa [encodeFrom] using h
    exact ⟨[], c, by simp⟩
  | cons p ps ih =>
    obtain hrest | ⟨cs, hrest, rfl⟩ := encodeFrom_cons_eq_bytes h <;>
      obtain ⟨front, last, rfl, hroom, hlast⟩ := ih hrest
    · refine ⟨front, last, rfl, ?_, by simpa using hlast⟩
      rw [List.length_cons]
      omega
    · refine ⟨frame c ++ front, last, (List.append_assoc ..).symm, ?_, by simpa using hlast⟩
      have hframe := length_frame_le c
      rw [List.length_append, List.length_cons]
      omega

/-- Settles O43: an encoding ends with the framing of its last run, and that run has length 0 only where there are no
pixels. -/
theorem encodedFrameSizeAndLastByte : Obligations.EncodedFrameSizeAndLastByte := by
  unfold Obligations.EncodedFrameSizeAndLastByte
  intro ps bs h
  obtain ⟨front, last, rfl, hroom, hlast⟩ := encodeFrom_eq_append_frame h
  have hsize := length_frame_le last
  have hpos := List.length_pos_iff.2 (frame_ne_nil last)
  rw [List.length_append, List.getLast?_append_of_ne_nil _ (frame_ne_nil last), getLast?_frame_eq_zero, hlast]
  exact ⟨by omega, by omega, by simp⟩

end Sys2Proof

namespace Sys2Proof.Machine

/-! ### ENC's part of a step -/

/-- `ENC.RESET` is ENC's reset (R117). -/
theorem exec_encReset (s : State) : exec .encReset s = .next s.resetEnc := rfl

/-- Settles O11: `enc_rst` selects `ENC.RESET`, which is ENC's reset. -/
theorem encResetReturnsToTheInitialState : Obligations.EncResetReturnsToTheInitialState :=
  ⟨rfl, exec_encReset⟩

theorem andThen_next_right (o : Host.Outcome State Fault Refusal) : andThen o .next = o := by cases o <;> rfl

/-- What a step leaves of ENC is what ENC's own part of the edge leaves, whatever DEC does at that edge (R59). -/
theorem step_enc_eq {s : State} {e : Edge} {es : List Edge} (hs : s.schedule = e :: es)
    (hb : brokenOffer e s = none) :
    ∃ t, step s = .next t ∧
      t.enc = (encAfter (encAction e s) ({ s with schedule := es }.noteOffers e)).enc ∧
      t.encPend = (encAfter (encAction e s) ({ s with schedule := es }.noteOffers e)).encPend ∧
      t.encIn = (encAfter (encAction e s) ({ s with schedule := es }.noteOffers e)).encIn ∧
      t.encOut = (encAfter (encAction e s) ({ s with schedule := es }.noteOffers e)).encOut := by
  obtain ⟨henc, hpend, hin, hout, -⟩ := decAfter_frame (decAction e s)
    (encAfter (encAction e s) ({ s with schedule := es }.noteOffers e))
  exact ⟨_, step_eq hs hb, henc, hpend, hin, hout⟩

/-! ### The input beat of ENC -/

/-- R118: ENC able to consume a symbol has an input beat with whatever stands offered. -/
theorem encInBeat_of_encReady {e : Edge} {s : State} (hr : e.encRst = false) (h : s.encReady = true) :
    encInBeat e s = encOffer e s := by simp [encInBeat, encInReady, hr, h]

theorem encAction_of_encInBeat {e : Edge} {s : State} {w : PortWord} (hr : e.encRst = false)
    (h : encInBeat e s = some w) : encAction e s = .input w := by simp [encAction, hr, h]

/-- Where DEC only waits, no symbol passes on `dec_in`. -/
theorem decInBeat_of_decAction_wait {e : Edge} {s : State} (h : decAction e s = .wait) :
    decInBeat e s = none := by
  cases hr : e.decRst
  · cases hbeat : decInBeat e s with
    | none => rfl
    | some w => simp [decAction, hr, hbeat] at h
  · simp [decAction, hr] at h

/-- Settles O22: ENC's part of the edge is the input beat of the symbol offered, and DEC's part leaves ENC alone. -/
theorem stepRunsTheOperationDecodedOnEncIn : Obligations.StepRunsTheOperationDecodedOnEncIn := by
  unfold Obligations.StepRunsTheOperationDecodedOnEncIn
  intro s e es w ws hs hb hr hv hin hpend herr
  have hready : s.encReady = true := (encReady_iff s).2 ⟨hpend, herr⟩
  have hoffer : encOffer e s = some w := by simp [encOffer, hv, hin]
  have hbeat : encInBeat e s = some w := (encInBeat_of_encReady hr hready).trans hoffer
  have haction : encAction e s = .input w := encAction_of_encInBeat hr hbeat
  have hstep := step_parts hs hb
  simp only [haction, encAct, hbeat, heldAfter, Option.isSome_some, if_true, State.popEncIn, hin,
    List.tail_cons] at hstep
  refine ⟨hstep, fun hwait => ?decWaits, ?next⟩
  case decWaits =>
    rw [hstep, hwait, decInBeat_of_decAction_wait hwait]
    exact andThen_next_right _
  case next =>
    obtain ⟨t, ht, henc, hpend', hin', hout⟩ := step_enc_eq hs hb
    rw [haction] at henc hpend' hin' hout
    obtain ⟨h1, h2, h3, h4⟩ := encAfter_input (w := w) (s := { s with schedule := es }.noteOffers e) hready
    exact ⟨t, ht, henc.trans h1, hpend'.trans h2, hin'.trans (h3.trans (congrArg List.tail hin)), hout.trans h4⟩

/-! ### The output beat of ENC -/

/-- R119: with a symbol pending, ENC consumes none. -/
theorem encInBeat_of_encPend_cons {s : State} {y : PortSymbol} {ys : List PortSymbol} (hp : s.encPend = y :: ys)
    (e : Edge) : encInBeat e s = none := by simp [encInBeat, encInReady, State.encReady, hp]

/-- R119: with a symbol pending, ENC delivers or waits as the other side accepts or does not. -/
theorem encAction_of_encPend_cons {e : Edge} {s : State} {y : PortSymbol} {ys : List PortSymbol}
    (hr : e.encRst = false) (hp : s.encPend = y :: ys) :
    encAction e s = if encAccept e s then .output else .wait := by
  simp [encAction, hr, encInBeat_of_encPend_cons hp, encOutBeat, encOutValid, hp]

/-- Settles O26: ENC's part of the edge is the output beat or a wait, and DEC's part leaves ENC alone. -/
theorem encOutputBeatDeliversTheHead : Obligations.EncOutputBeatDeliversTheHead := by
  unfold Obligations.EncOutputBeatDeliversTheHead
  intro s e es y ys hs hb hr hp
  have hbeat : encInBeat e s = none := encInBeat_of_encPend_cons hp e
  have haction := encAction_of_encPend_cons hr hp
  have hstep := step_parts hs hb
  rw [haction, hbeat] at hstep
  refine ⟨rfl, fun hacc => ?accepts, fun hacc => ?waits, hbeat, ?next⟩
  case accepts =>
    rw [hstep, if_pos hacc, encAct, andThen_next, encDeliver_cons]
    exact hp
  case waits =>
    rw [hstep, hacc, if_neg Bool.false_ne_true, encAct, andThen_next]
  case next =>
    obtain ⟨t, ht, henc, hpend, hin, hout⟩ := step_enc_eq hs hb
    refine ⟨t, ht, ?_⟩
    rw [henc, hpend, hin, hout, haction]
    cases hacc : encAccept e s
    case true =>
      have hdeliver := encDeliver_cons (s := { s with schedule := es }.noteOffers e) hp
      simp [encAfter, hdeliver]
    case false => simp [encAfter]

end Sys2Proof.Machine
end

section
/-! PROOFS. The family `41_framer.md`: the closed form, the size and the uniqueness of a framing (R141 to R145), the
pixel-by-pixel counting that emits it (R122), and the reading rule for a sequence of framings (R86, R144). -/

namespace Sys2Proof

/-! ### One framing -/

@[simp] theorem frame_zero : frame 0 = [0] := rfl

/-- R142, for a length above 0. -/
theorem frame_closed_form {len : Nat} (h : 1 ≤ len) :
    frame len = contPairs ((len - 1) / 255) ++ [BitVec.ofNat 8 (len - 255 * ((len - 1) / 255))] := by
  have hsplit : 255 * ((len - 1) / 255) + (len - 255 * ((len - 1) / 255)) = len := by omega
  calc frame len = frame (255 * ((len - 1) / 255) + (len - 255 * ((len - 1) / 255))) := by rw [hsplit]
    _ = _ := frame_pairs (by omega) (by omega)

/-- A length that one byte carries has that byte as its framing (R141). -/
theorem frame_of_le {len : Nat} (h1 : 1 ≤ len) (h2 : len ≤ 255) : frame len = [BitVec.ofNat 8 len] := by
  rw [frame_eq_loop (by omega), frameLoop_small _ _ h2]

/-- Pairs may be added at the end as at the front. -/
theorem contPairs_succ' (k : Nat) : contPairs (k + 1) = contPairs k ++ contPair := by
  induction k with
  | zero => rfl
  | succ k ih => exact congrArg (contPair ++ ·) ih

/-- One continuation pair accounts for 255 of the length, provided something is left for the terminal byte (R141). -/
theorem frame_add_255 {len : Nat} (h : 1 ≤ len) : frame (len + 255) = [255, 0] ++ frame len := by
  have hpairs : (len + 255 - 1) / 255 = (len - 1) / 255 + 1 := by omega
  have hlast : len + 255 - 255 * ((len - 1) / 255 + 1) = len - 255 * ((len - 1) / 255) := by omega
  rw [frame_closed_form h, frame_closed_form (by omega), hpairs, hlast]
  rfl

/-- The byte that ends the framing of a length above 0 holds its value. -/
theorem toNat_terminal {t : Nat} (h : t ≤ 255) : (BitVec.ofNat 8 t).toNat = t := by
  rw [BitVec.toNat_ofNat]
  omega

theorem terminal_ne_zero {t : Nat} (h1 : 1 ≤ t) (h2 : t ≤ 255) : BitVec.ofNat 8 t ≠ 0 := fun h => by
  have hval : t = 0 := (toNat_terminal h2).symm.trans (congrArg BitVec.toNat h)
  omega

/-- The bytes of a framing sum to its length (R144). -/
@[simp] theorem byteSum_frame (len : Nat) : byteSum (frame len) = len := by
  obtain rfl | ⟨k, t, rfl, h1, h2⟩ := length_split len
  · rfl
  · rw [frame_pairs h1 h2, byteSum_append, byteSum_contPairs, byteSum_cons, toNat_terminal h2, byteSum_nil,
      Nat.add_zero]

/-- No two lengths share a framing (R144). -/
theorem frame_injective : Function.Injective frame := Function.LeftInverse.injective byteSum_frame

/-- `unframe` has a value exactly on the framings (R143). -/
theorem unframe_eq_some_iff {bs : List Byte} {len : Nat} : unframe bs = some len ↔ frame len = bs := by
  constructor
  · intro h
    obtain ⟨hframe, rfl⟩ : frame (byteSum bs) = bs ∧ byteSum bs = len := by simpa [unframe] using h
    exact hframe
  · rintro rfl
    simp [unframe]

/-- The number of bytes in a framing: two for each continuation pair and the terminal byte (R145). -/
theorem length_frame {len : Nat} (h : 1 ≤ len) : (frame len).length = 2 * ((len - 1) / 255) + 1 := by
  rw [frame_closed_form h, List.length_append, length_contPairs, List.length_singleton]

/-- Settles O37: the closed form, and its quotient and remainder in the two cases. -/
theorem frameHasTheClosedForm : Obligations.FrameHasTheClosedForm := by
  unfold Obligations.FrameHasTheClosedForm
  exact ⟨frame_zero, fun len h => ⟨frame_closed_form h, by omega, by omega, by omega, by omega⟩⟩

/-- Settles O38: `unframe` has a value exactly on the framings, and the sum of the bytes undoes `frame`. -/
theorem unframeUndoesFrame : Obligations.UnframeUndoesFrame := by
  unfold Obligations.UnframeUndoesFrame
  exact ⟨fun _ => unframe_eq_some_iff.2 rfl, byteSum_frame, fun _ _ h => frame_injective h,
    fun _ _ => unframe_eq_some_iff.1⟩

/-- Settles O39: the number of bytes in terms of `(L - 1) div 255`, and from it the two cases of the remainder. -/
theorem frameByteCount : Obligations.FrameByteCount := by
  unfold Obligations.FrameByteCount
  refine ⟨rfl, fun len h => ?_⟩
  rw [length_frame h]
  exact ⟨rfl, by omega, by omega, by omega⟩

/-! ### The run lengths of a scan -/

/-- The run lengths of a stream that a scan reads with `c` pixels of polarity `pol` already counted. -/
def runLengthsFrom (pol : Polarity) (c : Nat) (ps : List Byte) : List Nat :=
  match maximalRuns ps with
  | [] => [c]
  | (q, n) :: rs => if q = pol.level then (c + n) :: rs.map Prod.snd else c :: n :: rs.map Prod.snd

/-- The scan of a frame starts dark with nothing counted, whence the leading dark run of length 0 (R85). -/
theorem runLengthsFrom_start (ps : List Byte) : runLengthsFrom .dark 0 ps = runLengths ps := by
  unfold runLengthsFrom runLengths
  cases maximalRuns ps with
  | nil => rfl
  | cons r rs => simp [Polarity.level]

theorem runLengthsFrom_ne_nil (pol : Polarity) (c : Nat) (ps : List Byte) : runLengthsFrom pol c ps ≠ [] := by
  unfold runLengthsFrom
  split <;> [skip; split] <;> exact List.cons_ne_nil _ _

theorem runLengthsFrom_continue (pol : Polarity) (c : Nat) (ps : List Byte) :
    runLengthsFrom pol c (pol.level :: ps) = runLengthsFrom pol (c + 1) ps := by
  rw [runLengthsFrom, runLengthsFrom, maximalRuns]
  cases maximalRuns ps with
  | nil => simp
  | cons r rs =>
    by_cases hr : pol.level = r.1
    · simp [hr, Nat.add_comm, Nat.add_left_comm]
    · simp [hr, Ne.symm hr]

theorem runLengthsFrom_break (pol : Polarity) (c : Nat) (ps : List Byte) :
    runLengthsFrom pol c (pol.flip.level :: ps) = c :: runLengthsFrom pol.flip 1 ps := by
  have hflip : pol.flip.level ≠ pol.level := by cases pol <;> decide
  rw [runLengthsFrom, runLengthsFrom, maximalRuns]
  cases maximalRuns ps with
  | nil => simp [hflip]
  | cons r rs =>
    by_cases hr : pol.flip.level = r.1
    · simp [hr, hr ▸ hflip, Nat.add_comm]
    · simp [hr, Ne.symm hr, hflip]

/-- A maximal run holds at least one pixel. -/
theorem maximalRuns_length_ne_zero {ps : List Byte} : ∀ r ∈ maximalRuns ps, r.2 ≠ 0 := by
  induction ps with
  | nil => simp [maximalRuns]
  | cons p ps ih =>
    unfold maximalRuns
    split
    · simp
    next q n rs hruns =>
      rw [hruns, List.forall_mem_cons] at ih
      split
      · simpa using ih.2
      · simpa using ih

/-- Only the run that was open before the scan can have length 0. -/
theorem runLengthsFrom_tail_ne_zero {pol : Polarity} {c : Nat} {ps : List Byte} :
    ∀ n ∈ (runLengthsFrom pol c ps).tail, n ≠ 0 := by
  have hpos := maximalRuns_length_ne_zero (ps := ps)
  unfold runLengthsFrom
  split
  · simp
  next q n rs hruns =>
    rw [hruns, List.forall_mem_cons] at hpos
    have hmap : ∀ m ∈ rs.map Prod.snd, m ≠ 0 := List.forall_mem_map.2 hpos.2
    split
    · exact hmap
    · exact List.forall_mem_cons.2 ⟨hpos.1, hmap⟩

/-- The scan of a valid stream writes the framings of its run lengths in order (R184). -/
theorem encodeFrom_eq_framed_runLengths {ps : List Byte} (hv : validPixels ps = true) (pol : Polarity) (c : Nat) :
    encodeFrom pol c ps = .bytes ((runLengthsFrom pol c ps).flatMap frame) := by
  induction ps generalizing pol c with
  | nil => simp [encodeFrom, runLengthsFrom, maximalRuns]
  | cons p ps ih =>
    obtain ⟨hp, hps⟩ : validPixel p = true ∧ validPixels ps = true := by simpa [validPixels] using hv
    obtain ⟨q, rfl⟩ := validPixel_iff.1 hp
    by_cases hq : pol = q
    · subst hq
      rw [encodeFrom_continue, runLengthsFrom_continue, ih hps]
    · rw [← Polarity.flip_of_ne hq, encodeFrom_break, runLengthsFrom_break, ih hps]
      rfl

/-- A scan that ends with bytes has met no invalid pixel (R110). -/
theorem validPixels_of_encodeFrom_eq_bytes {pol : Polarity} {c : Nat} {ps bs : List Byte}
    (h : encodeFrom pol c ps = .bytes bs) : validPixels ps = true := by
  induction ps generalizing pol c bs with
  | nil => rfl
  | cons p ps ih =>
    have hp : validPixel p = true := by
      by_contra hbad
      simp [encodeFrom_invalid pol c (Bool.eq_false_iff.2 hbad)] at h
    have hps : validPixels ps = true := by
      obtain hrest | ⟨cs, hrest, -⟩ := encodeFrom_cons_eq_bytes h <;> exact ih hrest
    rw [validPixels, List.all_cons, hp, Bool.true_and]
    exact hps

/-! ### The reading rule -/

/-- A continuation pair adds 255 to the length gathered (R86). -/
theorem runsFrom_contPairs (acc k : Nat) (bs : List Byte) :
    runsFrom acc (contPairs k ++ bs) = runsFrom (acc + 255 * k) bs := by
  induction k generalizing acc with
  | zero => rfl
  | succ k ih =>
    have hpair : runsFrom acc (255 :: 0 :: (contPairs k ++ bs)) = runsFrom (acc + 255) (contPairs k ++ bs) := by
      simp [runsFrom]
    rw [contPairs_succ, List.cons_append, List.cons_append, hpair, ih]
    congr 1
    omega

/-- A byte that no 0 follows is a terminal byte (R86). -/
theorem runsFrom_terminal {bs : List Byte} (h : bs.head? ≠ some 0) (acc : Nat) (b : Byte) :
    runsFrom acc (b :: bs) = (acc + b.toNat) :: runsFrom 0 bs := by
  cases bs with
  | nil => rfl
  | cons c bs =>
    have hc : c ≠ 0 := by simpa using h
    rw [runsFrom, if_neg fun hpair => hc hpair.2]

/-- One framing is read as one length, where what follows it does not start with 0. -/
theorem runsFrom_frame {bs : List Byte} (h : bs.head? ≠ some 0) (len : Nat) :
    runsFrom 0 (frame len ++ bs) = len :: runsFrom 0 bs := by
  obtain rfl | ⟨k, t, rfl, h1, h2⟩ := length_split len
  · exact runsFrom_terminal h 0 0
  · rw [frame_pairs h1 h2, List.append_assoc, List.singleton_append, runsFrom_contPairs, runsFrom_terminal h,
      toNat_terminal h2, Nat.zero_add]

/-- The framing of a length above 0 does not start with 0. -/
theorem head?_frame_ne_zero {len : Nat} (h : len ≠ 0) (bs : List Byte) : (frame len ++ bs).head? ≠ some 0 := by
  obtain rfl | ⟨k, t, rfl, h1, h2⟩ := length_split len
  · exact absurd rfl h
  · rw [frame_pairs h1 h2]
    cases k with
    | zero => simpa [contPairs] using terminal_ne_zero h1 h2
    | succ k => simp [contPairs_succ]

/-- A 0 at the start of what follows a terminal byte would be read as half a pair (R86); framings leave none there. -/
theorem head?_framed_ne_zero {ls : List Nat} (h : ∀ n ∈ ls, n ≠ 0) : (ls.flatMap frame).head? ≠ some 0 := by
  cases ls with
  | nil => simp
  | cons n ls =>
    rw [List.flatMap_cons]
    exact head?_frame_ne_zero (List.forall_mem_cons.1 h).1 _

/-- The reading loop undoes the framing of lengths of which only the first may be 0. -/
theorem runsFrom_framed {ls : List Nat} (h : ∀ n ∈ ls.tail, n ≠ 0) : runsFrom 0 (ls.flatMap frame) = ls := by
  induction ls with
  | nil => rfl
  | cons n ls ih =>
    have hls : ∀ m ∈ ls, m ≠ 0 := h
    rw [List.flatMap_cons, runsFrom_frame (head?_framed_ne_zero hls), ih fun m hm => hls m (List.mem_of_mem_tail hm)]

/-! ### Framed run lengths are canonical -/

theorem canonicalAfter_cons_of_ne_zero {b : Byte} (h : b ≠ 0) (prev : Byte) (bs : List Byte) :
    canonicalAfter prev (b :: bs) = canonicalAfter b bs := by
  have hb : b ≠ 0#8 := h
  cases bs <;> simp [canonicalAfter, hb]

/-- A continuation pair is in order where a byte other than 0 follows it (R85 (b)). -/
theorem canonicalAfter_contPair {bs : List Byte} (hne : bs ≠ []) (h : bs.head? ≠ some 0) (prev : Byte) :
    canonicalAfter prev (255 :: 0 :: bs) = canonicalAfter 0 bs := by
  cases bs with
  | nil => exact absurd rfl hne
  | cons c bs =>
    have hc : c ≠ 0#8 := by simpa using h
    simp [canonicalAfter, hc]

/-- A framing of a length above 0 keeps R85 (b), whatever byte precedes it. -/
theorem canonicalAfter_frame {len : Nat} (h : len ≠ 0) {bs : List Byte} (hbs : ∀ b, canonicalAfter b bs = true)
    (prev : Byte) : canonicalAfter prev (frame len ++ bs) = true := by
  induction len using Nat.strongRecOn generalizing prev with
  | ind len ih =>
    by_cases hlen : len ≤ 255
    · have hpos : 1 ≤ len := Nat.pos_of_ne_zero h
      rw [frame_of_le hpos hlen, List.singleton_append, canonicalAfter_cons_of_ne_zero (terminal_ne_zero hpos hlen)]
      exact hbs _
    · obtain ⟨m, rfl⟩ : ∃ m, len = m + 255 := ⟨len - 255, by omega⟩
      have hm : m ≠ 0 := by omega
      rw [frame_add_255 (by omega), List.append_assoc]
      refine (canonicalAfter_contPair ?_ (head?_frame_ne_zero hm bs) prev).trans (ih m (by omega) hm 0)
      simp [frame_ne_nil]

theorem canonicalAfter_framed {ls : List Nat} (h : ∀ n ∈ ls, n ≠ 0) (prev : Byte) :
    canonicalAfter prev (ls.flatMap frame) = true := by
  induction ls generalizing prev with
  | nil => rfl
  | cons n ls ih =>
    obtain ⟨hn, hls⟩ := List.forall_mem_cons.1 h
    exact canonicalAfter_frame hn (ih hls) prev

/-- R85 on a list that starts with no 0, or with a 0 that no 0 follows. -/
theorem isCanonical_cons {b : Byte} {bs : List Byte} (h : b ≠ 0 ∨ bs.head? ≠ some 0) :
    isCanonical (b :: bs) = canonicalAfter b bs := by
  cases bs with
  | nil => rfl
  | cons c bs =>
    have hbc : b ≠ 0#8 ∨ c ≠ 0#8 := by simpa using h
    rcases hbc with hb | hc
    · simp [isCanonical, hb]
    · simp [isCanonical, hc]

/-- The framings of lengths of which only the first may be 0 are a canonical list. -/
theorem isCanonical_framed {ls : List Nat} (hne : ls ≠ []) (h : ∀ n ∈ ls.tail, n ≠ 0) :
    isCanonical (ls.flatMap frame) = true := by
  cases ls with
  | nil => exact absurd rfl hne
  | cons n ls =>
    have hls : ∀ m ∈ ls, m ≠ 0 := h
    by_cases hn : n = 0
    · subst hn
      exact (isCanonical_cons (.inr (head?_framed_ne_zero hls))).trans (canonicalAfter_framed hls 0)
    · have hall : ∀ m ∈ n :: ls, m ≠ 0 := List.forall_mem_cons.2 ⟨hn, hls⟩
      have hhead := head?_framed_ne_zero hall
      have hafter := canonicalAfter_framed hall 0
      cases hbytes : (n :: ls).flatMap frame with
      | nil => simp [List.flatMap_cons, frame_ne_nil] at hbytes
      | cons b bs =>
        rw [hbytes] at hhead hafter
        have hb : b ≠ 0 := by simpa using hhead
        rw [isCanonical_cons (.inl hb), ← canonicalAfter_cons_of_ne_zero hb 0]
        exact hafter

/-- The reading rule gives back framed lengths of which only the first may be 0 (R86). -/
theorem runs_framed {ls : List Nat} (hne : ls ≠ []) (h : ∀ n ∈ ls.tail, n ≠ 0) :
    runs (ls.flatMap frame) = some ls := by
  rw [runs, if_pos (isCanonical_framed hne h), runsFrom_framed h]

/-- Settles O45: an encoding is the framings of its run lengths, of which only the first can be 0, and such a list the
reading rule takes apart. -/
theorem runsReadsTheRunLengthsBack : Obligations.RunsReadsTheRunLengthsBack := by
  unfold Obligations.RunsReadsTheRunLengthsBack
  intro ps bs h
  have hv : validPixels ps = true := validPixels_of_encodeFrom_eq_bytes h
  obtain rfl : (runLengthsFrom .dark 0 ps).flatMap frame = bs :=
    Encoded.bytes.inj ((encodeFrom_eq_framed_runLengths hv .dark 0).symm.trans h)
  rw [← runLengthsFrom_start]
  exact runs_framed (runLengthsFrom_ne_nil _ _ _) runLengthsFrom_tail_ne_zero

end Sys2Proof

namespace Sys2Proof.Machine

/-! ### The framer's operations -/

theorem exec_frmEnc (len : Nat) (s : State) : exec (.frmEnc len) s = .next { s with frm := .bytes (frame len) } := rfl

theorem exec_frmDec_frame (len : Nat) (s : State) :
    exec (.frmDec (frame len)) s = .next { s with frm := .length len } := by
  have hvalue : unframe (frame len) = some len := unframe_eq_some_iff.2 rfl
  simp [exec, execFrmDec, hvalue]

/-- Settles O15: the three equations of R141, from the closed form. -/
theorem frameOperationGivesTheFraming : Obligations.FrameOperationGivesTheFraming := by
  unfold Obligations.FrameOperationGivesTheFraming
  refine ⟨exec_frmEnc, frame_zero, fun _ => frame_of_le, fun len h => ?_⟩
  obtain ⟨m, rfl⟩ : ∃ m, len = m + 255 := ⟨len - 255, by omega⟩
  rw [frame_add_255 (by omega), Nat.add_sub_cancel]

/-- Settles O16: a list that is the framing of its sum is read, and on any other `unframe` has no value. -/
theorem unframeOperationGivesTheLengthOrIsRefused : Obligations.UnframeOperationGivesTheLengthOrIsRefused := by
  unfold Obligations.UnframeOperationGivesTheLengthOrIsRefused
  refine fun bs s => ⟨fun h => ?framing, fun h => ?other⟩
  case framing =>
    have hexec := exec_frmDec_frame (byteSum bs) s
    rwa [h] at hexec
  case other =>
    have hnone : unframe bs = none := if_neg h
    simp [exec, execFrmDec, hnone]

/-! ### Counting pixel by pixel -/

/-- One symbol more at the end of a run of ENC that has met no fault. -/
theorem encRun_concat {r t : EncRegs} {ws : List PortWord} {out : List PortSymbol}
    (h : encRun r ws = { regs := t, out := out, rest := [] }) (herr : t.err = false) (w : PortWord) :
    encRun r (ws ++ [w]) =
      { regs := (encOp (decodeEncIn w) t).1, out := out ++ (encOp (decodeEncIn w) t).2, rest := [] } := by
  rw [encRun_append r ws [w] (by rw [h]), h, encRun_cons herr]
  simp

/-- A run counted from its first pixel on: the count starts again at 1 after every 255 pixels, which leave a
continuation pair on the output (R122). -/
theorem encRun_ownPixels (p : Polarity) (n : Nat) :
    encRun { pol := p, cnt := 1, err := false } (List.replicate n (dataWord p.level))
      = { regs := { pol := p, cnt := BitVec.ofNat 8 (n % 255 + 1), err := false }
          out := (contPairs (n / 255)).map .data
          rest := [] } := by
  induction n with
  | zero => rfl
  | succ n ih =>
    have hcnt : (BitVec.ofNat 8 (n % 255 + 1)).toNat = n % 255 + 1 := toNat_terminal (by omega)
    rw [List.replicate_succ', encRun_concat ih rfl, encOp_level]
    by_cases hspill : n % 255 = 254
    · have hmod : (n + 1) % 255 = 0 := by omega
      have hdiv : (n + 1) / 255 = n / 255 + 1 := by omega
      rw [encPixel_spill (p := p) rfl (by rw [hcnt, hspill]), hmod, hdiv, contPairs_succ', List.map_append]
      rfl
    · have hmod : (n + 1) % 255 = n % 255 + 1 := by omega
      have hdiv : (n + 1) / 255 = n / 255 := by omega
      rw [encPixel_continue (p := p) rfl (by rw [hcnt]; omega), hmod, hdiv, List.append_nil,
        BitVec.ofNat_add (n % 255 + 1) 1]
      rfl

/-- Settles O49: the count that is left when 255 is taken off for each pair is the remainder and the first pixel. -/
theorem runCountingSpillsAsFrameDoes : Obligations.RunCountingSpillsAsFrameDoes := by
  unfold Obligations.RunCountingSpillsAsFrameDoes
  intro p n
  have hcount : n + 1 - 255 * (n / 255) = n % 255 + 1 := by omega
  rw [hcount]
  exact encRun_ownPixels p n

end Sys2Proof.Machine
end

section
/-! PROOFS. The family `42_decoder.md`: DEC's polarity as a position (R169), its three operations (R161 to R163), and
what a step does at its input beat and its output beat (R164, R165). -/

namespace Sys2Proof

/-! ### Polarity as the parity of a position -/

@[simp] theorem Polarity.atPosition_zero : Polarity.atPosition 0 = .dark := rfl

/-- One position further is the other polarity (R82). -/
theorem Polarity.atPosition_succ (j : Nat) : Polarity.atPosition (j + 1) = (Polarity.atPosition j).flip := by
  obtain h | h := Nat.mod_two_eq_zero_or_one j <;>
    simp [Polarity.atPosition, Polarity.flip, Nat.add_mod, h]

/-- The flag's bit at a position is the position's parity. -/
theorem Polarity.bit_atPosition (j : Nat) : (Polarity.atPosition j).bit = BitVec.ofNat 1 (j % 2) := by
  obtain h | h := Nat.mod_two_eq_zero_or_one j <;> simp [Polarity.atPosition, Polarity.bit, h]

end Sys2Proof

namespace Sys2Proof.Machine

/-- From any position in a frame, each further byte moves DEC's polarity one position on, whatever its value. -/
theorem decRun_dataWords_atPosition (i : Nat) (bs : List Byte) :
    (decRun (Polarity.atPosition i) (dataWords bs)).1 = Polarity.atPosition (i + bs.length) := by
  induction bs generalizing i with
  | nil => rfl
  | cons b bs ih =>
    have hcons : dataWords (b :: bs) = dataWord b :: dataWords bs := rfl
    have hop : (decOp (.decRun b) (Polarity.atPosition i)).1 = Polarity.atPosition (i + 1) :=
      (Polarity.atPosition_succ i).symm
    rw [hcons, decRun_cons, decodeDecIn_dataWord, hop, ih, List.length_cons, Nat.add_right_comm, Nat.add_assoc]

/-- Settles O53: a reset or a marker leaves the polarity of position 0, and every byte is one position more. -/
theorem polarityIsPositionParity : Obligations.PolarityIsPositionParity := by
  unfold Obligations.PolarityIsPositionParity
  refine ⟨fun _ => ⟨rfl, fun _ => rfl⟩, fun bs => ?bytes, Polarity.bit_atPosition⟩
  case bytes => simpa using decRun_dataWords_atPosition 0 bs

/-! ### The three operations -/

@[simp] theorem decLoad_dataWord (n : Byte) (s : State) : s.decLoad (dataWord n) = s.loadRun n := by
  simp [State.decLoad]

@[simp] theorem decLoad_eofWord (d : Byte) (s : State) : s.decLoad (eofWord d) = s.loadEof := by
  simp [State.decLoad]

theorem exec_decRun {s : State} (h : s.decReady = true) (n : Byte) : exec (.decRun n) s = .next (s.loadRun n) :=
  decInputBeat_ready h

theorem exec_decEof {s : State} (h : s.decReady = true) (d : Byte) : exec (.decEof d) s = .next s.loadEof :=
  decInputBeat_ready h

theorem exec_decReset (s : State) : exec .decReset s = .next s.resetDec := rfl

/-- Settles O12: the input beat loads the byte, and what is then pending is the byte's Level O output. -/
theorem runLoadsTheByteAndFlipsThePolarity : Obligations.RunLoadsTheByteAndFlipsThePolarity := by
  unfold Obligations.RunLoadsTheByteAndFlipsThePolarity
  refine ⟨decodeDecIn_dataWord, fun _ _ => rfl, ?_⟩
  rintro n s _ hrem heof rfl
  have hready : s.decReady = true := (decReady_iff s).2 ⟨hrem, heof⟩
  have hpending := decPending_decLoad hready (dataWord n)
  rw [decLoad_dataWord, decodeDecIn_dataWord] at hpending
  exact ⟨exec_decRun hready n, hpending⟩

/-- Settles O13: the input beat loads the marker, and what is then pending is the marker's Level O output. -/
theorem decEofMakesTheMarkerPending : Obligations.DecEofMakesTheMarkerPending := by
  unfold Obligations.DecEofMakesTheMarkerPending
  refine ⟨decodeDecIn_eofWord, fun _ _ => rfl, ?_⟩
  rintro d s _ hrem heof rfl
  have hready : s.decReady = true := (decReady_iff s).2 ⟨hrem, heof⟩
  have hpending := decPending_decLoad hready (eofWord d)
  rw [decLoad_eofWord, decodeDecIn_eofWord] at hpending
  exact ⟨exec_decEof hready d, hpending⟩

/-- Settles O14: `dec_rst` selects `DEC.RESET`, which is DEC's reset. -/
theorem decResetReturnsToTheInitialState : Obligations.DecResetReturnsToTheInitialState :=
  ⟨rfl, exec_decReset⟩

/-! ### The two blocks' parts of an edge do not touch each other -/

/-- The state `s` with ENC's registers and streams as `u` has them. -/
def State.withEnc (s u : State) : State :=
  { s with enc := u.enc, encPend := u.encPend, encIn := u.encIn, encOut := u.encOut }

@[simp] theorem withEnc_self (s : State) : s.withEnc s = s := rfl

/-- ENC's part of an edge reads and writes ENC's own fields alone, whatever the rest of the state is. -/
theorem encAfter_withEnc (a : BlockAction) (s u : State) :
    encAfter a (s.withEnc u) = s.withEnc (encAfter a u) := by
  cases a with
  | reset => rfl
  | input w =>
    have hready : (s.withEnc u).encReady = u.encReady := rfl
    simp only [encAfter, hready]
    split <;> rfl
  | output =>
    cases hp : u.encPend with
    | nil => simp [encAfter, State.encDeliver, State.withEnc, hp]
    | cons y ys =>
      have hboth : (s.withEnc u).encPend = y :: ys := hp
      rw [encAfter, encAfter, encDeliver_cons hp, encDeliver_cons hboth]
      rfl
  | wait => rfl

theorem decLoad_withEnc (w : PortWord) (s u : State) : (s.withEnc u).decLoad w = (s.decLoad w).withEnc u := by
  unfold State.decLoad
  split <;> rfl

/-- DEC's part of an edge neither reads nor writes ENC's fields. -/
theorem decAfter_withEnc (b : BlockAction) (s u : State) :
    decAfter b (s.withEnc u) = (decAfter b s).withEnc u := by
  cases b with
  | reset => rfl
  | input w =>
    have hready : (s.withEnc u).decReady = s.decReady := rfl
    have hlinked : (s.withEnc u).linked = s.linked := rfl
    simp only [decAfter, hready, hlinked]
    split
    · split
      · exact decLoad_withEnc w s u
      · exact decLoad_withEnc w s.popDecIn u
    · split <;> rfl
  | output =>
    have hrem : (s.withEnc u).decRem = s.decRem := rfl
    have heof : (s.withEnc u).decPendEof = s.decPendEof := rfl
    simp only [decAfter, State.decDeliver, hrem, heof]
    split <;> [skip; split] <;> rfl
  | wait => rfl

/-- What ENC's part of an edge changes is ENC's. -/
theorem encAfter_eq_withEnc (a : BlockAction) (s : State) : encAfter a s = s.withEnc (encAfter a s) :=
  encAfter_withEnc a s s

/-- R59, R51: the two blocks' parts of an edge can be done in either order. -/
theorem encAfter_decAfter (a b : BlockAction) (s : State) :
    encAfter a (decAfter b s) = decAfter b (encAfter a s) :=
  calc encAfter a (decAfter b s) = encAfter a ((decAfter b s).withEnc s) := by rw [← decAfter_withEnc, withEnc_self]
    _ = (decAfter b s).withEnc (encAfter a s) := encAfter_withEnc a _ s
    _ = decAfter b (s.withEnc (encAfter a s)) := (decAfter_withEnc b s _).symm
    _ = decAfter b (encAfter a s) := by rw [← encAfter_eq_withEnc]

/-- A symbol leaves `dec_in` before ENC's part of the edge or after it. -/
theorem encAfter_popDecIn (a : BlockAction) (s : State) : encAfter a s.popDecIn = (encAfter a s).popDecIn :=
  calc encAfter a s.popDecIn = s.popDecIn.withEnc (encAfter a s) := encAfter_withEnc a s.popDecIn s
    _ = (s.withEnc (encAfter a s)).popDecIn := rfl
    _ = (encAfter a s).popDecIn := by rw [← encAfter_eq_withEnc]

/-! ### DEC's part of a step -/

/-- The state from which both blocks' parts of an edge start: the edge has left the schedule, and the offers that
stand after it are noted. -/
def State.atEdge (e : Edge) (es : List Edge) (s : State) : State :=
  { s with
    schedule := es
    encHeld := heldAfter (encOffer e s) (encInBeat e s)
    decHeld := heldAfter (decOffer e s) (decInBeat e s) }

/-- A step with DEC's part of the edge done first. -/
theorem step_decFirst {s : State} {e : Edge} {es : List Edge} (hs : s.schedule = e :: es)
    (hb : brokenOffer e s = none) :
    step s = encAct (encAction e s) (decAfter (decAction e s) (s.atEdge e es)) := by
  rw [step_eq hs hb, encAct_eq, encAfter_decAfter]
  rfl

/-- What a step leaves of DEC is what DEC's own part of the edge leaves, whatever ENC does at that edge (R59). -/
theorem step_dec_eq {s : State} {e : Edge} {es : List Edge} (hs : s.schedule = e :: es)
    (hb : brokenOffer e s = none) :
    ∃ t, step s = .next t ∧
      t.decPol = (decAfter (decAction e s) (s.atEdge e es)).decPol ∧
      t.decRunPol = (decAfter (decAction e s) (s.atEdge e es)).decRunPol ∧
      t.decRem = (decAfter (decAction e s) (s.atEdge e es)).decRem ∧
      t.decPendEof = (decAfter (decAction e s) (s.atEdge e es)).decPendEof ∧
      t.decIn = (decAfter (decAction e s) (s.atEdge e es)).decIn ∧
      t.decOut = (decAfter (decAction e s) (s.atEdge e es)).decOut := by
  obtain ⟨hpol, hrunPol, hrem, heof, hin, hout, -⟩ :=
    encAfter_frame (encAction e s) (decAfter (decAction e s) (s.atEdge e es))
  exact ⟨_, (step_decFirst hs hb).trans (encAct_eq _ _), hpol, hrunPol, hrem, heof, hin, hout⟩

/-! ### The input beat of DEC -/

/-- R164: DEC able to consume a symbol has an input beat with whatever stands offered. -/
theorem decInBeat_of_decReady {e : Edge} {s : State} (hr : e.decRst = false) (h : s.decReady = true) :
    decInBeat e s = decOffer e s := by simp [decInBeat, decInReady, hr, h]

theorem decAction_of_decInBeat {e : Edge} {s : State} {w : PortWord} (hr : e.decRst = false)
    (h : decInBeat e s = some w) : decAction e s = .input w := by simp [decAction, hr, h]

/-- The input beat of DEC where the HOST feeds it. -/
theorem decAct_input {s : State} (hl : s.linked = false) (w : PortWord) :
    decAct (.input w) s = exec (decode (.decIn w)) s.popDecIn := by simp [decAct, hl]

/-- Where ENC only waits, no symbol passes on `enc_in`. -/
theorem encInBeat_of_encAction_wait {e : Edge} {s : State} (h : encAction e s = .wait) :
    encInBeat e s = none := by
  cases hr : e.encRst
  · cases hbeat : encInBeat e s with
    | none => rfl
    | some w => simp [encAction, hr, hbeat] at h
  · simp [encAction, hr] at h

/-- An offer that has its beat stands no longer (R242). -/
@[simp] theorem heldAfter_some (offer : Option PortWord) (w : PortWord) : heldAfter offer (some w) = none := rfl

/-- A step at which DEC, fed by the HOST, consumes a symbol, with the symbol taken from `dec_in` at the start. -/
theorem step_decInput {s : State} {e : Edge} {es : List Edge} {w : PortWord} (hs : s.schedule = e :: es)
    (hb : brokenOffer e s = none) (hl : s.linked = false) (ha : decAction e s = .input w) :
    step s = andThen (encAct (encAction e s) (s.atEdge e es).popDecIn) (exec (decode (.decIn w))) := by
  have hlinked : (encAfter (encAction e s) (s.atEdge e es)).linked = false := by
    rw [encAfter_eq_withEnc]
    exact hl
  calc step s = decAct (.input w) (encAfter (encAction e s) (s.atEdge e es)) := by
        rw [step_eq hs hb, ha, decAct_eq]
        rfl
    _ = exec (decode (.decIn w)) (encAfter (encAction e s) (s.atEdge e es).popDecIn) := by
        rw [decAct_input hlinked, encAfter_popDecIn]
    _ = _ := by rw [encAct_eq, andThen_next]

/-- Settles O23: DEC's part of the edge is the input beat of the symbol offered, and ENC's part leaves DEC alone. -/
theorem stepRunsTheOperationDecodedOnDecIn : Obligations.StepRunsTheOperationDecodedOnDecIn := by
  unfold Obligations.StepRunsTheOperationDecodedOnDecIn
  intro s e es w ws hs hb hr hv hl hin hrem heof
  have hready : s.decReady = true := (decReady_iff s).2 ⟨hrem, heof⟩
  have hoffer : decOffer e s = some w := by simp [decOffer, hl, hv, hin]
  have hbeat : decInBeat e s = some w := (decInBeat_of_decReady hr hready).trans hoffer
  have haction : decAction e s = .input w := decAction_of_decInBeat hr hbeat
  have hstep := step_decInput hs hb hl haction
  simp only [State.atEdge, State.popDecIn, hbeat, heldAfter_some, hin, List.tail_cons] at hstep
  refine ⟨hstep, fun hwait => ?encWaits, ?next⟩
  case encWaits =>
    rw [hstep, hwait, encInBeat_of_encAction_wait hwait]
    rfl
  case next =>
    obtain ⟨t, ht, hpol', hrunPol', hrem', heof', hin', hout'⟩ := step_dec_eq hs hb
    have hafter := decAfter_input (w := w) (s := s.atEdge e es) hready hl
    obtain ⟨-, -, -, -, hloadIn, hloadOut, -⟩ := decLoad_frame w (s.atEdge e es).popDecIn
    rw [haction, hafter] at hpol' hrunPol' hrem' heof' hin' hout'
    refine ⟨t, ht, (hin'.trans hloadIn).trans (congrArg List.tail hin), hout'.trans hloadOut, ?byte, ?marker⟩
    case byte =>
      rintro n rfl
      rw [decLoad_dataWord] at hpol' hrunPol' hrem' heof'
      exact ⟨hrunPol', hrem', hpol', heof'.trans heof⟩
    case marker =>
      rintro d rfl
      rw [decLoad_eofWord] at hpol' hrunPol' hrem' heof'
      exact ⟨heof', hpol', hrem'.trans hrem, hrunPol'⟩

/-! ### The output beat of DEC -/

/-- DEC cannot consume a symbol exactly while a pixel or the marker is still to be delivered (R51). -/
theorem decReady_eq_false_iff (s : State) : s.decReady = false ↔ s.decRem ≠ 0 ∨ s.decPendEof = true := by
  rw [← Bool.not_eq_true, decReady_iff, not_and_or, Bool.not_eq_false]

/-- R165: with something to deliver, DEC consumes no symbol. -/
theorem decInBeat_of_not_decReady {s : State} (h : s.decReady = false) (e : Edge) : decInBeat e s = none := by
  simp [decInBeat, decInReady, h]

/-- R165: with something to deliver, DEC delivers or waits as the HOST accepts or does not. -/
theorem decAction_of_not_decReady {e : Edge} {s : State} (hr : e.decRst = false) (h : s.decReady = false) :
    decAction e s = if e.decOutReady then .output else .wait := by
  simp [decAction, hr, decInBeat_of_not_decReady h, decOutBeat, decOutValid, h]

/-- Settles O27: DEC's part of the edge is the output beat or a wait, and ENC's part can be done after it. -/
theorem decOutputBeatDeliversAPixelOrTheMarker : Obligations.DecOutputBeatDeliversAPixelOrTheMarker := by
  unfold Obligations.DecOutputBeatDeliversAPixelOrTheMarker
  intro s e es hs hb hr
  have hstep := step_decFirst hs hb
  refine ⟨fun hacc hrem => ?pixel, fun hacc hrem heof => ?marker, fun hacc hbusy => ?waits, fun hbusy => ?next⟩
  case pixel =>
    have hready : s.decReady = false := (decReady_eq_false_iff s).2 (.inl hrem)
    have hdeliver := decDeliver_run (s := s.atEdge e es) hrem
    rw [hstep, decAction_of_not_decReady hr hready, if_pos hacc, decAfter, hdeliver]
    simp only [State.atEdge, decInBeat_of_not_decReady hready]
  case marker =>
    have hready : s.decReady = false := (decReady_eq_false_iff s).2 (.inr heof)
    have hdeliver := decDeliver_eof (s := s.atEdge e es) hrem heof
    rw [hstep, decAction_of_not_decReady hr hready, if_pos hacc, decAfter, hdeliver]
    simp only [State.atEdge, decInBeat_of_not_decReady hready]
    rfl
  case waits =>
    have hready : s.decReady = false := (decReady_eq_false_iff s).2 hbusy
    rw [hstep, decAction_of_not_decReady hr hready, hacc, if_neg Bool.false_ne_true, decAfter, State.atEdge,
      decInBeat_of_not_decReady hready]
  case next =>
    have hready : s.decReady = false := (decReady_eq_false_iff s).2 hbusy
    obtain ⟨t, ht, hpol, hrunPol, -, -, hin, -⟩ := step_dec_eq hs hb
    refine ⟨decInBeat_of_not_decReady hready e, t, ht, ?_⟩
    rw [hpol, hrunPol, hin, decAction_of_not_decReady hr hready]
    cases e.decOutReady
    case true =>
      obtain ⟨-, -, -, hpol', hin'⟩ := decPending_decDeliver (s := s.atEdge e es) hready
      exact ⟨hpol', decDeliver_decRunPol _, hin'⟩
    case false => exact ⟨rfl, rfl, rfl⟩

end Sys2Proof.Machine
end

section
/-! PROOFS. The family `43_codec_laws.md`. Level F (R180 to R186): both functions are read through the lengths of the
runs, `encode` as their framings and `decode` as the runs laid out again. Level O (R187): ENC's count register and the
pairs it has emitted are together the framing of the run it counts. Level B (R188): every edge advances a block by the
Level O output of the symbol it consumes, and under a willing HOST brings it nearer to the end of its input. -/

namespace Sys2Proof

/-! ### Runs laid out as pixels -/

/-- The pixels of runs of the given lengths, laid out in order, the first in polarity `pol` and each next one in the
other. -/
def layRuns (pol : Polarity) : List Nat → List Byte
  | [] => []
  | n :: ns => List.replicate n pol.level ++ layRuns pol.flip ns

/-- R184's layout by the parity of a run's position is the layout by alternation. -/
theorem flatten_mapIdx_atPosition (j : Nat) (ls : List Nat) :
    (ls.mapIdx fun i n => List.replicate n (Polarity.atPosition (i + j)).level).flatten
      = layRuns (Polarity.atPosition j) ls := by
  induction ls generalizing j with
  | nil => rfl
  | cons n ls ih =>
    have hnext := ih (j + 1)
    simp only [← Nat.add_assoc, Nat.add_right_comm _ j 1] at hnext
    rw [List.mapIdx_cons, List.flatten_cons, hnext, Polarity.atPosition_succ, Nat.zero_add, layRuns]

/-- The run lengths of a valid stream, laid out again, give the pixels counted before the scan and the stream (R184). -/
theorem layRuns_runLengthsFrom {ps : List Byte} (hv : validPixels ps = true) (pol : Polarity) (c : Nat) :
    layRuns pol (runLengthsFrom pol c ps) = List.replicate c pol.level ++ ps := by
  induction ps generalizing pol c with
  | nil => simp [runLengthsFrom, maximalRuns, layRuns]
  | cons p ps ih =>
    obtain ⟨hp, hps⟩ : validPixel p = true ∧ validPixels ps = true := by simpa [validPixels] using hv
    obtain ⟨q, rfl⟩ := validPixel_iff.1 hp
    by_cases hq : pol = q
    · subst hq
      rw [runLengthsFrom_continue, ih hps, List.replicate_succ', List.append_assoc, List.singleton_append]
    · rw [← Polarity.flip_of_ne hq, runLengthsFrom_break, layRuns, ih hps]
      rfl

theorem encodeFrame_eq_framed_runLengths {ps : List Byte} (hv : validPixels ps = true) :
    encodeFrame ps = .bytes ((runLengths ps).flatMap frame) := by
  rw [← runLengthsFrom_start]
  exact encodeFrom_eq_framed_runLengths hv .dark 0

theorem layRuns_runLengths {ps : List Byte} (hv : validPixels ps = true) : layRuns .dark (runLengths ps) = ps := by
  rw [← runLengthsFrom_start]
  exact layRuns_runLengthsFrom hv .dark 0

theorem runLengths_tail_ne_zero (ps : List Byte) : ∀ n ∈ (runLengths ps).tail, n ≠ 0 := by
  rw [← runLengthsFrom_start]
  exact runLengthsFrom_tail_ne_zero

/-- Settles O44: the scan writes the framings of its run lengths, and laying these out gives back what was scanned. -/
theorem encodingIsTheFramedRunLengths : Obligations.EncodingIsTheFramedRunLengths := by
  unfold Obligations.EncodingIsTheFramedRunLengths
  intro ps hv
  exact ⟨encodeFrame_eq_framed_runLengths hv, (flatten_mapIdx_atPosition 0 _).trans (layRuns_runLengths hv),
    runLengths_tail_ne_zero ps⟩

/-! ### The round trip of the functions -/

/-- A framing decodes to one run of its length, and leaves the polarity flipped (R146). -/
theorem decodeFrom_frame (pol : Polarity) (len : Nat) (bs : List Byte) :
    decodeFrom pol (frame len ++ bs) = List.replicate len pol.level ++ decodeFrom pol.flip bs := by
  obtain rfl | ⟨k, t, rfl, h1, h2⟩ := length_split len
  · rfl
  · rw [frame_pairs h1 h2, List.append_assoc, decodeFrom_contPairs, List.singleton_append, decodeFrom_cons,
      toNat_terminal h2, List.replicate_add, List.append_assoc]

/-- Framed run lengths decode to the runs laid out. -/
theorem decodeFrom_framed (pol : Polarity) (ls : List Nat) :
    decodeFrom pol (ls.flatMap frame) = layRuns pol ls := by
  induction ls generalizing pol with
  | nil => rfl
  | cons n ls ih => rw [List.flatMap_cons, decodeFrom_frame, ih, layRuns]

/-- The encoding of a stream is defined where the stream is valid, and is the framings of its run lengths. -/
theorem encodeFrame_eq_bytes_iff {ps bs : List Byte} :
    encodeFrame ps = .bytes bs ↔ validPixels ps = true ∧ bs = (runLengths ps).flatMap frame := by
  refine ⟨fun h => ?_, fun ⟨hv, hbs⟩ => hbs ▸ encodeFrame_eq_framed_runLengths hv⟩
  have hv : validPixels ps = true := validPixels_of_encodeFrom_eq_bytes h
  exact ⟨hv, Encoded.bytes.inj (h.symm.trans (encodeFrame_eq_framed_runLengths hv))⟩

/-- R180 for the functions: what a valid stream is encoded to decodes to the stream. -/
theorem decodeFrame_encodeFrame {ps bs : List Byte} (h : encodeFrame ps = .bytes bs) : decodeFrame bs = ps := by
  obtain ⟨hv, rfl⟩ := encodeFrame_eq_bytes_iff.1 h
  exact (decodeFrom_framed .dark _).trans (layRuns_runLengths hv)

theorem length_decodeFrom (pol : Polarity) (bs : List Byte) : (decodeFrom pol bs).length = byteSum bs := by
  induction bs generalizing pol with
  | nil => rfl
  | cons b bs ih => rw [decodeFrom_cons, List.length_append, List.length_replicate, ih, byteSum_cons]

/-- Settles O42: each byte decodes to as many pixels as its value, and an encoding decodes to the stream it is of. -/
theorem bytesSumToThePixelCount : Obligations.BytesSumToThePixelCount := by
  unfold Obligations.BytesSumToThePixelCount
  refine ⟨fun ps bs h => ?_, length_decodeFrom .dark⟩
  rw [← length_decodeFrom .dark bs]
  exact congrArg List.length (decodeFrame_encodeFrame h)

/-! ### Decoding a concatenation -/

/-- Each byte moves the polarity one position on, so the second part is decoded from where the first one ends. -/
theorem decodeFrom_append (i : Nat) (as bs : List Byte) :
    decodeFrom (Polarity.atPosition i) (as ++ bs)
      = decodeFrom (Polarity.atPosition i) as ++ decodeFrom (Polarity.atPosition (i + as.length)) bs := by
  induction as generalizing i with
  | nil => rfl
  | cons a as ih =>
    rw [List.cons_append, decodeFrom_cons, decodeFrom_cons, ← Polarity.atPosition_succ, ih, List.append_assoc,
      List.length_cons, Nat.add_right_comm, Nat.add_assoc]

theorem invertPixels_append (ps qs : List Byte) : invertPixels (ps ++ qs) = invertPixels ps ++ invertPixels qs :=
  List.map_append

theorem invertPixels_replicate (n : Nat) (pol : Polarity) :
    invertPixels (List.replicate n pol.level) = List.replicate n pol.flip.level := by
  cases pol <;> simp [invertPixels, Polarity.level, Polarity.flip]

/-- Decoding from the other polarity inverts every pixel (R186). -/
theorem decodeFrom_flip (pol : Polarity) (bs : List Byte) :
    decodeFrom pol.flip bs = invertPixels (decodeFrom pol bs) := by
  induction bs generalizing pol with
  | nil => rfl
  | cons b bs ih => rw [decodeFrom_cons, decodeFrom_cons, invertPixels_append, invertPixels_replicate, ih]

/-- Settles O48: the second part is decoded from the polarity of the position after the first, and the example of
R186 (a) is run. -/
theorem decodingAConcatenationInvertsAfterAnOddPart : Obligations.DecodingAConcatenationInvertsAfterAnOddPart := by
  unfold Obligations.DecodingAConcatenationInvertsAfterAnOddPart
  refine ⟨fun as bs => ?law, by decide, by decide, by decide⟩
  have happend := decodeFrom_append 0 as bs
  rw [Nat.zero_add] at happend
  refine ⟨fun heven => ?even, fun hodd => ?odd⟩
  case even =>
    have hpol : Polarity.atPosition as.length = .dark := if_pos heven
    rw [hpol] at happend
    exact happend
  case odd =>
    have hpol : Polarity.atPosition as.length = Polarity.dark.flip := if_neg (by omega)
    rw [hpol, decodeFrom_flip] at happend
    exact happend

/-! ### Canonical lists are the framed run lengths -/

/-- R85 (b) read along the list: what `canonicalAfter` checks of the bytes after `prev`. -/
theorem canonicalAfter_iff {prev : Byte} {bs : List Byte} :
    canonicalAfter prev bs = true ↔
      ∀ i : Nat, bs[i]? = some 0 → (prev :: bs)[i]? = some 255 ∧ ∃ c, bs[i + 1]? = some c ∧ c ≠ 0 := by
  induction bs generalizing prev with
  | nil => simp [canonicalAfter]
  | cons b bs ih =>
    rw [← Nat.and_forall_add_one]
    cases bs with
    | nil => simp [canonicalAfter]
    | cons c bs =>
      have hhead : (b != 0 || (prev == 255 && c != 0)) = true ↔ (b = 0 → prev = 255 ∧ c ≠ 0) := by
        simp [imp_iff_not_or]
      rw [canonicalAfter, Bool.and_eq_true, ih, hhead]
      simp

/-- R85 on a list with a first byte: (b) for the bytes after it, and (c) for the byte itself. -/
theorem canonical_cons_iff {b : Byte} {bs : List Byte} :
    Canonical (b :: bs) ↔
      canonicalAfter b bs = true ∧ (b = 0 → bs = [] ∨ ∃ c, bs.head? = some c ∧ c ≠ 0) := by
  rw [canonicalAfter_iff, Canonical]
  simp +contextual [List.head?_eq_getElem?]

/-- The check of R85 is R85. -/
theorem isCanonical_iff {bs : List Byte} : isCanonical bs = true ↔ Canonical bs := by
  rcases bs with _ | ⟨b, _ | ⟨c, bs⟩⟩
  · simp [isCanonical, Canonical]
  · simp [isCanonical, canonical_cons_iff, canonicalAfter]
  · have hhead : (b != 0 || c != 0) = true ↔ (b = 0 → c ≠ 0) := by simp [imp_iff_not_or]
    rw [isCanonical, Bool.and_eq_true, hhead, canonical_cons_iff, and_comm]
    simp

theorem toNat_ne_zero {b : Byte} (h : b ≠ 0) : b.toNat ≠ 0 := BitVec.toNat_ne_iff_ne.2 h

/-- A byte other than 0 is the framing of its value (R141). -/
theorem frame_toNat {b : Byte} (h : b ≠ 0) : frame b.toNat = [b] := by
  have hlt : b.toNat < 256 := b.isLt
  rw [frame_of_le (Nat.pos_of_ne_zero (toNat_ne_zero h)) (by omega), BitVec.ofNat_toNat, BitVec.setWidth_eq]

/-- Bytes that keep R85 (b) after a first byte other than 0 are, with it, the framings of lengths above 0. -/
theorem exists_framed_of_canonicalAfter : ∀ {b : Byte} {bs : List Byte}, b ≠ 0 → canonicalAfter b bs = true →
    ∃ n ls, b :: bs = (n :: ls).flatMap frame ∧ ∀ m ∈ n :: ls, m ≠ 0
  | b, [], hb, _ => ⟨b.toNat, [], by simp [frame_toNat hb], by simpa using toNat_ne_zero hb⟩
  | b, c :: cs, hb, h => by
    by_cases hc : c = 0
    · subst hc
      cases cs with
      | nil => simp [canonicalAfter] at h
      | cons d ds =>
        have hpair : (b = 255 ∧ d ≠ 0) ∧ canonicalAfter 0 (d :: ds) = true := by simpa [canonicalAfter] using h
        obtain ⟨⟨rfl, hd⟩, hds⟩ := hpair
        rw [canonicalAfter_cons_of_ne_zero hd] at hds
        obtain ⟨n, ls, hbytes, hpos⟩ := exists_framed_of_canonicalAfter hd hds
        obtain ⟨hn, hls⟩ := List.forall_mem_cons.1 hpos
        refine ⟨n + 255, ls, ?_, List.forall_mem_cons.2 ⟨by omega, hls⟩⟩
        rw [List.flatMap_cons, frame_add_255 (Nat.pos_of_ne_zero hn), List.append_assoc, ← List.flatMap_cons, ← hbytes]
        rfl
    · rw [canonicalAfter_cons_of_ne_zero hc] at h
      obtain ⟨n, ls, hbytes, hpos⟩ := exists_framed_of_canonicalAfter hc h
      refine ⟨b.toNat, n :: ls, ?_, List.forall_mem_cons.2 ⟨toNat_ne_zero hb, hpos⟩⟩
      rw [List.flatMap_cons, ← hbytes, frame_toNat hb, List.singleton_append]

/-- R85: a canonical list is the framings of lengths of which only the first may be 0. -/
theorem exists_framed_of_canonical {bs : List Byte} (h : Canonical bs) :
    ∃ n ls, bs = (n :: ls).flatMap frame ∧ ∀ m ∈ ls, m ≠ 0 := by
  cases bs with
  | nil => exact absurd rfl h.1
  | cons b bs =>
    obtain ⟨hafter, hzero⟩ := canonical_cons_iff.1 h
    by_cases hb : b = 0
    · subst hb
      obtain rfl | ⟨c, hhead, hc⟩ := hzero rfl
      · exact ⟨0, [], rfl, by simp⟩
      · obtain ⟨cs, rfl⟩ := List.head?_eq_some_iff.1 hhead
        rw [canonicalAfter_cons_of_ne_zero hc] at hafter
        obtain ⟨n, ls, hbytes, hpos⟩ := exists_framed_of_canonicalAfter hc hafter
        exact ⟨0, n :: ls, by rw [hbytes]; rfl, hpos⟩
    · obtain ⟨n, ls, hbytes, hpos⟩ := exists_framed_of_canonicalAfter hb hafter
      exact ⟨n, ls, hbytes, (List.forall_mem_cons.1 hpos).2⟩

/-! ### Encoding runs laid out -/

/-- The scan counts the pixels of its own run. -/
theorem encodeFrom_replicate (pol : Polarity) (c n : Nat) (ps : List Byte) :
    encodeFrom pol c (List.replicate n pol.level ++ ps) = encodeFrom pol (c + n) ps := by
  induction n generalizing c with
  | zero => rfl
  | succ n ih =>
    rw [List.replicate_succ, List.cons_append, encodeFrom_continue, ih, Nat.add_assoc, Nat.add_comm 1]

/-- The scan of runs laid out, of which only the first may be empty, writes their framings: each next run closes the
one before it. -/
theorem encodeFrom_layRuns (pol : Polarity) (c n : Nat) {ls : List Nat} (h : ∀ m ∈ ls, m ≠ 0) :
    encodeFrom pol c (layRuns pol (n :: ls)) = .bytes (((c + n) :: ls).flatMap frame) := by
  rw [layRuns, encodeFrom_replicate]
  induction ls generalizing pol c n with
  | nil => simp [layRuns, encodeFrom]
  | cons m ls ih =>
    obtain ⟨hm, hls⟩ := List.forall_mem_cons.1 h
    obtain ⟨k, rfl⟩ := Nat.exists_eq_succ_of_ne_zero hm
    rw [layRuns, List.replicate_succ, List.cons_append, encodeFrom_break, encodeFrom_replicate, ih _ _ _ hls,
      List.flatMap_cons, Nat.add_comm 1]
    rfl

theorem encodeFrame_decodeFrame_of_canonical {bs : List Byte} (h : Canonical bs) :
    encodeFrame (decodeFrame bs) = .bytes bs := by
  obtain ⟨n, ls, rfl, hpos⟩ := exists_framed_of_canonical h
  have hencode := encodeFrom_layRuns .dark 0 n hpos
  rw [Nat.zero_add, ← decodeFrom_framed] at hencode
  exact hencode

theorem validPixels_decodeFrom (pol : Polarity) (bs : List Byte) : validPixels (decodeFrom pol bs) = true := by
  induction bs generalizing pol with
  | nil => rfl
  | cons b bs ih =>
    have hrun : validPixels (List.replicate b.toNat pol.level) = true :=
      List.all_eq_true.2 fun p hp => validPixel_iff.2 ⟨pol, List.eq_of_mem_replicate hp⟩
    rw [decodeFrom_cons, validPixels, List.all_append, Bool.and_eq_true]
    exact ⟨hrun, ih pol.flip⟩

/-- R85: an encoding is canonical. -/
theorem canonical_encodeFrame {ps bs : List Byte} (h : encodeFrame ps = .bytes bs) : Canonical bs := by
  obtain ⟨-, rfl⟩ := encodeFrame_eq_bytes_iff.1 h
  rw [← runLengthsFrom_start]
  exact isCanonical_iff.1 (isCanonical_framed (runLengthsFrom_ne_nil _ _ _) runLengthsFrom_tail_ne_zero)

/-- Settles O47: a canonical list is framed lengths, which the scan of its runs writes again; any list decodes to a
valid stream, whose encoding is canonical and decodes to that stream. -/
theorem reencodingGivesTheCanonicalForm : Obligations.ReencodingGivesTheCanonicalForm := by
  unfold Obligations.ReencodingGivesTheCanonicalForm
  refine ⟨fun _ => encodeFrame_decodeFrame_of_canonical, fun bs => ?_, by decide, by decide⟩
  have hencode := encodeFrame_eq_framed_runLengths (validPixels_decodeFrom .dark bs)
  exact ⟨_, hencode, canonical_encodeFrame hencode, decodeFrame_encodeFrame hencode⟩

end Sys2Proof

namespace Sys2Proof.Machine

/-! ### DEC at Level O is `decode` -/

theorem dataWords_cons (b : Byte) (bs : List Byte) : dataWords (b :: bs) = dataWord b :: dataWords bs := rfl

/-- R187 for DEC: from any polarity, a list of bytes and a marker. -/
theorem decRun_dataWords_eof (pol : Polarity) (bs : List Byte) (d : Byte) :
    decRun pol (dataWords bs ++ [eofWord d]) = (.dark, (decodeFrom pol bs).map .data ++ [.eof]) := by
  induction bs generalizing pol with
  | nil => simp [dataWords, decOp]
  | cons b bs ih =>
    rw [dataWords_cons, List.cons_append, decRun_cons, decodeDecIn_dataWord, decOp, ih, decodeFrom_cons,
      List.map_append, List.map_replicate, List.append_assoc]

/-- Settles O52: DEC's loop from dark polarity is the loop of `decode`. -/
theorem decoderEmitsTheDecodingOfAFrame : Obligations.DecoderEmitsTheDecodingOfAFrame :=
  decRun_dataWords_eof .dark

/-- Settles O40: the functions by their run lengths, and the blocks by DEC following ENC's polarity symbol by symbol. -/
theorem decodeUndoesEncode : Obligations.DecodeUndoesEncode := by
  unfold Obligations.DecodeUndoesEncode
  intro ps hv
  have hencode := encodeFrame_eq_framed_runLengths hv
  have hframe : frameWords ps = dataWords ps ++ [eofWord 0] := rfl
  rw [hframe]
  exact ⟨⟨_, hencode, decodeFrame_encodeFrame hencode⟩, decRun_encRun_frame hv 0 rfl⟩

/-! ### ENC at Level O is `encode` -/

/-- ENC's registers in a run of polarity `pol` of which `c` pixels have been counted: the count is the byte that
ends the framing of `c` (R122). -/
def EncRegs.counted (pol : Polarity) (c : Nat) : EncRegs :=
  { pol := pol, cnt := BitVec.ofNat 8 (c - 255 * ((c - 1) / 255)), err := false }

/-- What ENC has emitted of that run: the continuation pairs of the framing of `c` (R122). -/
def spilled (c : Nat) : List Byte := contPairs ((c - 1) / 255)

@[simp] theorem spilled_zero : spilled 0 = [] := rfl

@[simp] theorem spilled_one : spilled 1 = [] := rfl

theorem counted_reset : EncRegs.counted .dark 0 = EncRegs.reset := rfl

/-- The framing of a run is what has been emitted of it and the count. -/
theorem frame_eq_spilled (pol : Polarity) (c : Nat) : frame c = spilled c ++ [(EncRegs.counted pol c).cnt] := by
  obtain rfl | hc := Nat.eq_zero_or_pos c
  · rfl
  · exact frame_closed_form hc

theorem toNat_counted_cnt (pol : Polarity) (c : Nat) :
    (EncRegs.counted pol c).cnt.toNat = c - 255 * ((c - 1) / 255) := toNat_terminal (by omega)

/-- One pixel more of the run's polarity: the count goes on, and what is emitted is the pair that the framing of the
longer run has more, if it has one. -/
theorem encPixel_counted_continue (pol : Polarity) (c : Nat) :
    ∃ bs, encPixel pol (.counted pol c) = (.counted pol (c + 1), bs.map .data) ∧ spilled (c + 1) = spilled c ++ bs := by
  have hcnt := toNat_counted_cnt pol c
  by_cases hspill : c - 255 * ((c - 1) / 255) = 255
  · have hmod : c + 1 - 255 * ((c + 1 - 1) / 255) = 1 := by omega
    have hdiv : (c + 1 - 1) / 255 = (c - 1) / 255 + 1 := by omega
    refine ⟨contPair, ?_, by rw [spilled, hdiv, contPairs_succ']; rfl⟩
    rw [encPixel_spill (p := pol) rfl (hcnt.trans hspill), EncRegs.counted, EncRegs.counted, hmod]
    rfl
  · have hmod : c + 1 - 255 * ((c + 1 - 1) / 255) = c - 255 * ((c - 1) / 255) + 1 := by omega
    have hdiv : (c + 1 - 1) / 255 = (c - 1) / 255 := by omega
    refine ⟨[], ?_, by rw [spilled, hdiv, List.append_nil]; rfl⟩
    rw [encPixel_continue (p := pol) rfl (by omega), EncRegs.counted, EncRegs.counted, hmod, BitVec.ofNat_add]
    rfl

theorem ne_flip (pol : Polarity) : pol ≠ pol.flip := by cases pol <;> decide

/-- A pixel of the other polarity: the count is emitted and a run of one pixel begins. -/
theorem encPixel_counted_break (pol : Polarity) (c : Nat) :
    encPixel pol.flip (.counted pol c) = (.counted pol.flip 1, [.data (EncRegs.counted pol c).cnt]) := by
  have hpol : (EncRegs.counted pol c).pol ≠ pol.flip := ne_flip pol
  rw [encPixel_break hpol]
  rfl

/-- R187 for ENC within a frame, from any point of a run: the scan's bytes are those emitted of the run before, those
emitted now, and the count. -/
theorem encRun_dataWords {ps : List Byte} (hv : validPixels ps = true) (pol : Polarity) (c : Nat) :
    ∃ (r : EncRegs) (bs : List Byte),
      encRun (.counted pol c) (dataWords ps) = { regs := r, out := bs.map .data, rest := [] } ∧ r.err = false ∧
      encodeFrom pol c ps = .bytes (spilled c ++ bs ++ [r.cnt]) := by
  induction ps generalizing pol c with
  | nil => exact ⟨.counted pol c, [], rfl, rfl, by rw [encodeFrom, frame_eq_spilled pol, List.append_nil]⟩
  | cons p ps ih =>
    obtain ⟨hp, hps⟩ : validPixel p = true ∧ validPixels ps = true := by simpa [validPixels] using hv
    obtain ⟨q, rfl⟩ := validPixel_iff.1 hp
    rw [dataWords_cons, encRun_cons rfl, encOp_level]
    by_cases hq : pol = q
    · subst hq
      obtain ⟨bs, hpixel, hspilled⟩ := encPixel_counted_continue pol c
      obtain ⟨r, cs, hrun, herr, hscan⟩ := ih hps pol (c + 1)
      refine ⟨r, bs ++ cs, ?_, herr, ?_⟩
      · rw [hpixel, hrun, List.map_append]
      · rw [encodeFrom_continue, hscan, hspilled, List.append_assoc _ bs cs]
    · obtain rfl := Polarity.flip_of_ne hq
      obtain ⟨r, cs, hrun, herr, hscan⟩ := ih hps pol.flip 1
      refine ⟨r, (EncRegs.counted pol c).cnt :: cs, ?_, herr, ?_⟩
      · rw [encPixel_counted_break, hrun]
        rfl
      · rw [encodeFrom_break, hscan, frame_eq_spilled pol]
        simp [Encoded.after]

/-- R187 for ENC within a frame: from reset, the encoding is what has been emitted and the count. -/
theorem encRun_dataWords_reset {ps : List Byte} (hv : validPixels ps = true) :
    ∃ (r : EncRegs) (bs : List Byte),
      encRun EncRegs.reset (dataWords ps) = { regs := r, out := bs.map .data, rest := [] } ∧ r.err = false ∧
      encodeFrame ps = .bytes (bs ++ [r.cnt]) := encRun_dataWords hv .dark 0

/-- Settles O50: at the marker ENC emits the count, which is all the encoding lacks, and the marker. -/
theorem encoderEmitsTheEncodingOfAValidFrame : Obligations.EncoderEmitsTheEncodingOfAValidFrame := by
  unfold Obligations.EncoderEmitsTheEncodingOfAValidFrame
  intro ps d hv
  obtain ⟨r, bs, hrun, herr, hencode⟩ := encRun_dataWords_reset hv
  refine ⟨_, hencode, ?_⟩
  rw [encRun_concat hrun herr, encOp_eof, encEndFrame_regs herr]
  simp [encEndFrame]

/-- An invalid pixel selects `ENC.PIXBAD`, which sets the fault flag and emits nothing (R115). -/
theorem encOp_invalidPixel {b : Byte} (hdark : b ≠ 0) (hlight : b ≠ 255) (r : EncRegs) :
    encOp (decodeEncIn (dataWord b)) r = ({ r with err := true }, []) := by
  rw [decodeEncIn_dataWord, if_neg hdark, if_neg hlight]
  rfl

/-- An invalid pixel emits nothing, sets the fault flag and leaves what follows it (R115, R206). -/
theorem encRun_invalidPixel {r : EncRegs} (herr : r.err = false) {b : Byte} (hdark : b ≠ 0) (hlight : b ≠ 255)
    (tail : List PortWord) :
    encRun r (dataWord b :: tail) = { regs := { r with err := true }, out := [], rest := tail } := by
  rw [encRun_cons herr, encOp_invalidPixel hdark hlight, encRun_fault rfl]
  rfl

/-- Settles O51: before the marker the count is all the encoding lacks, and the invalid pixel adds nothing. -/
theorem encoderWithholdsTheLastByteAndStopsAtAnInvalidPixel :
    Obligations.EncoderWithholdsTheLastByteAndStopsAtAnInvalidPixel := by
  unfold Obligations.EncoderWithholdsTheLastByteAndStopsAtAnInvalidPixel
  intro ps hv
  obtain ⟨r, bs, hrun, herr, hencode⟩ := encRun_dataWords_reset hv
  refine ⟨_, hencode, ?_, ?_, fun b tail hdark hlight => ?_⟩
  · rw [hrun, List.dropLast_concat]
  · rw [hrun, List.getLast?_concat]
  · rw [encRun_append _ _ _ (by rw [hrun]), hrun, encRun_invalidPixel herr hdark hlight, List.dropLast_concat]
    exact ⟨List.append_nil _, rfl, rfl⟩

/-! ### Level B gives Level O -/

/-- Runs under a plan whose edges all pass `ok`: what holds of no step and of a step after others holds of a run. -/
theorem runSteps_relates {R : State → State → Prop} {ok : Edge → Prop} (hrefl : ∀ s, R s s)
    (htrans : ∀ {s u t}, R s u → R u t → R s t)
    (hstep : ∀ {s t : State} {e : Edge} {es : List Edge}, s.schedule = e :: es → ok e → step s = .next t → R s t)
    {n : Nat} {s t : State} (hok : ∀ e ∈ s.schedule.take n, ok e) (h : runSteps n s = .next t) : R s t := by
  induction n generalizing s with
  | zero =>
    cases h
    exact hrefl _
  | succ n ih =>
    rw [runSteps_succ] at h
    obtain ⟨u, hu, hut⟩ := andThen_eq_next.1 h
    obtain ⟨hs, rfl⟩ | ⟨e, es, hs, hes, -, -⟩ := step_enc_cases hu
    · exact ih (by simp [hs]) hut
    · rw [hs, List.take_succ_cons, List.forall_mem_cons] at hok
      exact htrans (hstep hs hok.1 hu) (ih (hes ▸ hok.2) hut)

/-- The cases of a step, where the next edge of the schedule is known. -/
theorem cases_nextEdge {s : State} {e : Edge} {es : List Edge} {P : Prop} {Q : Edge → List Edge → Prop}
    (hs : s.schedule = e :: es)
    (h : (s.schedule = [] ∧ P) ∨ ∃ e' es', s.schedule = e' :: es' ∧ Q e' es') : Q e es := by
  obtain ⟨hnil, -⟩ | ⟨e', es', hs', hQ⟩ := h
  · simp [hs] at hnil
  · obtain ⟨rfl, rfl⟩ : e = e' ∧ es = es' := by simpa [hs] using hs'
    exact hQ

/-- R188 for ENC between two states of a run: the symbols consumed, taken at Level O, leave the registers as they are
and give what ENC has produced. -/
def State.EncAdvances (s t : State) : Prop :=
  ∃ ws, s.encIn = ws ++ t.encIn ∧ (encRun s.enc ws).rest = [] ∧ (encRun s.enc ws).regs = t.enc ∧
    t.encProduced = s.encProduced ++ (encRun s.enc ws).out.map PortSymbol.bits

theorem encAdvances_refl (s : State) : s.EncAdvances s := ⟨[], by simp⟩

theorem encAdvances_trans {s u t : State} (hsu : s.EncAdvances u) (hut : u.EncAdvances t) : s.EncAdvances t := by
  obtain ⟨vs, hin, hrest, hregs, hproduced⟩ := hsu
  obtain ⟨ws, hin', hrest', hregs', hproduced'⟩ := hut
  refine ⟨vs ++ ws, by rw [hin, hin', List.append_assoc], ?_⟩
  rw [encRun_append _ _ _ hrest, hregs]
  refine ⟨hrest', hregs', ?_⟩
  rw [hproduced', hproduced, List.map_append, List.append_assoc]

/-- An edge at which ENC is not reset: an input beat parks the Level O output of the symbol, an output beat moves a
symbol from what is pending to what is delivered, and a wait changes nothing. -/
theorem encAdvances_step {s t : State} {e : Edge} {es : List Edge} (hs : s.schedule = e :: es)
    (hr : e.encRst = false) (h : step s = .next t) : s.EncAdvances t := by
  obtain ⟨-, -, hcase⟩ := cases_nextEdge hs (step_enc_cases h)
  obtain ⟨hreset, -⟩ | ⟨-, hpend, herr, w, hin, henc, hpend', hout⟩ | ⟨-, -, y, hpend, henc, hin, hout⟩ |
    ⟨-, henc, hpend, hin, hout, -⟩ := hcase
  case inl => simp [hr] at hreset
  case inr.inl =>
    exact ⟨[w], hin, by simp [encRun_cons herr, State.encProduced, hpend, henc, hpend', hout]⟩
  case inr.inr.inl => exact ⟨[], by simp [State.encProduced, hpend, henc, hin, hout]⟩
  case inr.inr.inr => exact ⟨[], by simp [State.encProduced, hpend, henc, hin, hout]⟩

/-- Settles O56: an edge without ENC's reset advances ENC by the Level O output of what it consumes, and so does a run
of such edges. -/
theorem encoderDeliversTheLevelOOutputUnderEverySchedule :
    Obligations.EncoderDeliversTheLevelOOutputUnderEverySchedule := by
  unfold Obligations.EncoderDeliversTheLevelOOutputUnderEverySchedule
  intro n s t hrst hrun
  exact runSteps_relates (R := State.EncAdvances) encAdvances_refl encAdvances_trans encAdvances_step hrst hrun

/-- R188 for DEC between two states of a run, where the HOST feeds it. -/
def State.DecAdvances (s t : State) : Prop :=
  s.linked = false → t.linked = false ∧
    ∃ ws, s.decIn = ws ++ t.decIn ∧ (decRun s.decPol ws).1 = t.decPol ∧
      t.decProduced = s.decProduced ++ (decRun s.decPol ws).2.map PortSymbol.bits

theorem decAdvances_refl (s : State) : s.DecAdvances s := fun hl => ⟨hl, [], by simp⟩

theorem decAdvances_trans {s u t : State} (hsu : s.DecAdvances u) (hut : u.DecAdvances t) : s.DecAdvances t := by
  intro hl
  obtain ⟨hlu, vs, hin, hpol, hproduced⟩ := hsu hl
  obtain ⟨hlt, ws, hin', hpol', hproduced'⟩ := hut hlu
  refine ⟨hlt, vs ++ ws, by rw [hin, hin', List.append_assoc], ?_⟩
  rw [decRun_append, hpol]
  refine ⟨hpol', ?_⟩
  rw [hproduced', hproduced, List.map_append, List.append_assoc]

theorem step_linked {s t : State} (h : step s = .next t) : t.linked = s.linked := by
  obtain ⟨-, rfl⟩ | ⟨-, -, -, -, hl, -⟩ := step_enc_cases h
  · rfl
  · exact hl

/-- Where the HOST feeds DEC, an edge at which DEC is not reset takes from `dec_in` the symbol that passes there. -/
theorem decIn_step {s t : State} {e : Edge} {es : List Edge} (hl : s.linked = false) (hs : s.schedule = e :: es)
    (hr : e.decRst = false) (h : step s = .next t) : s.decIn = (decInBeat e s).toList ++ t.decIn := by
  obtain ⟨hreset, -⟩ | ⟨-, hready, w, hoffer, -, -, -, -, hin, -⟩ | ⟨-, hready, -, -, -, -, -, hin, -⟩ |
    ⟨-, -, -, -, -, hin, -, hoffer, -⟩ := cases_nextEdge hs (step_dec_cases h)
  case inl => simp [hr] at hreset
  case inr.inl =>
    obtain ⟨-, ws, hws⟩ := decOffer_own hl hoffer
    simp [decInBeat_of_decReady hr hready, hoffer, hin, hl, hws]
  case inr.inr.inl => simp [decInBeat_of_not_decReady hready, hin]
  case inr.inr.inr =>
    cases hready : s.decReady
    · simp [decInBeat_of_not_decReady hready, hin]
    · simp [decInBeat_of_decReady hr hready, hoffer hready, hin]

theorem decAdvances_step {s t : State} {e : Edge} {es : List Edge} (hs : s.schedule = e :: es)
    (hr : e.decRst = false) (h : step s = .next t) : s.DecAdvances t := by
  intro hl
  obtain ⟨hpol, hproduced⟩ := decProduced_step hs hr h
  exact ⟨(step_linked h).trans hl, (decInBeat e s).toList, decIn_step hl hs hr h, hpol.symm, hproduced⟩

/-- Settles O57: an edge without DEC's reset advances DEC by the Level O output of the symbol that passes on `dec_in`,
and so does a run of such edges. -/
theorem decoderDeliversTheLevelOOutputUnderEverySchedule :
    Obligations.DecoderDeliversTheLevelOOutputUnderEverySchedule := by
  unfold Obligations.DecoderDeliversTheLevelOOutputUnderEverySchedule
  intro n s t hl hrst hrun
  exact (runSteps_relates (R := State.DecAdvances) decAdvances_refl decAdvances_trans decAdvances_step hrst hrun hl).2

/-! ### A willing HOST -/

/-- A countdown: where every edge `e` has a next state and keeps `Inv`, and takes a state within `n + 1` edges of an
aim to one within `n`, there `n` edges take a state within `n` of the aim to it. -/
theorem runSteps_countdown {e : Edge} {Inv : State → Prop} {Within : Nat → State → Prop}
    (hkeep : ∀ {s : State} {es : List Edge}, s.schedule = e :: es → Inv s → ∃ t, step s = .next t ∧ Inv t)
    (hnear : ∀ {n : Nat} {s t : State} {es : List Edge}, s.schedule = e :: es → Inv s → step s = .next t →
      Within (n + 1) s → Within n t)
    {n : Nat} {s : State} (hs : s.schedule = List.replicate n e) (hinv : Inv s) (hn : Within n s) :
    ∃ t, runSteps n s = .next t ∧ Within 0 t := by
  induction n generalizing s with
  | zero => exact ⟨s, rfl, hn⟩
  | succ n ih =>
    obtain ⟨u, hu, hinv'⟩ := hkeep hs hinv
    obtain ⟨hes, -⟩ := cases_nextEdge hs (step_enc_cases hu)
    obtain ⟨t, ht, haim⟩ := ih hes hinv' (hnear hs hinv hu hn)
    exact ⟨t, by rw [runSteps_succ, hu, andThen_next, ht], haim⟩

/-- The offers that stand after a step are those of its edge (R242). -/
theorem step_held {s t : State} {e : Edge} {es : List Edge} (hs : s.schedule = e :: es) (h : step s = .next t) :
    t.encHeld = heldAfter (encOffer e s) (encInBeat e s) ∧ t.decHeld = heldAfter (decOffer e s) (decInBeat e s) := by
  obtain ⟨-, rfl⟩ := cases_nextEdge hs (step_cases h)
  obtain ⟨-, -, -, -, hencD, hdecD, -⟩ := decAfter_frame (decAction e s)
    (encAfter (encAction e s) ({ s with schedule := es }.noteOffers e))
  obtain ⟨-, -, -, -, -, -, hencE, hdecE, -⟩ :=
    encAfter_frame (encAction e s) ({ s with schedule := es }.noteOffers e)
  exact ⟨hencD.trans hencE, hdecD.trans hdecE⟩

theorem brokenOffer_eq_none {e : Edge} {s : State} (henc : offerKept s.encHeld (encOffer e s) = true)
    (hdec : offerKept s.decHeld (decOffer e s) = true) : brokenOffer e s = none := by
  simp [brokenOffer, henc, hdec]

/-- An offer that stands after an edge is kept at the next if it is made again wherever it had no beat. -/
theorem offerKept_heldAfter {offer next beat : Option PortWord} (h : beat = none → next = offer) :
    offerKept (heldAfter offer beat) next = true := by
  cases beat with
  | none => simp [heldAfter, offerKept, h rfl]
  | some w => rfl

/-- Where the HOST offers every symbol, an edge at which ENC is not reset takes from `enc_in` the symbol that passes
there. -/
theorem encIn_step {s t : State} {e : Edge} {es : List Edge} (hv : e.encInValid = true) (hs : s.schedule = e :: es)
    (hr : e.encRst = false) (h : step s = .next t) : s.encIn = (encInBeat e s).toList ++ t.encIn := by
  obtain ⟨-, -, hcase⟩ := cases_nextEdge hs (step_enc_cases h)
  obtain ⟨hreset, -⟩ | ⟨-, hpend, herr, w, hin, -⟩ | ⟨-, -, y, hpend, -, hin, -⟩ | ⟨-, -, -, hin, -, hoffer, -⟩ := hcase
  case inl => simp [hr] at hreset
  case inr.inl =>
    have hready : s.encReady = true := (encReady_iff s).2 ⟨hpend, herr⟩
    have hoffer : encOffer e s = some w := by simp [encOffer, hv, hin]
    simp [encInBeat_of_encReady hr hready, hoffer, hin]
  case inr.inr.inl => simp [encInBeat_of_encPend_cons hpend, hin]
  case inr.inr.inr =>
    cases hready : s.encReady
    · simp [encInBeat, encInReady, hready, hin]
    · simp [encInBeat_of_encReady hr hready, hoffer hready, hin]

/-! ### Draining ENC -/

/-- The HOST at an edge at which it offers a symbol to ENC and accepts one from it (R239). -/
def encWilling : Edge :=
  { encRst := false, decRst := false, encInValid := true, encOutReady := true, decInValid := false,
    decOutReady := false }

/-- The HOST keeps to the port discipline while it offers every symbol to ENC, and to DEC none. -/
def State.FeedsEnc (s : State) : Prop :=
  s.linked = false ∧ offerKept s.encHeld s.encIn.head? = true ∧ s.decHeld = none

theorem encOffer_encWilling (s : State) : encOffer encWilling s = s.encIn.head? := rfl

theorem decOffer_encWilling {s : State} (hl : s.linked = false) : decOffer encWilling s = none := by
  simp [decOffer, hl, encWilling]

/-- A willing edge has a next state, and the HOST goes on keeping to the discipline. -/
theorem feedsEnc_step {s : State} {es : List Edge} (hs : s.schedule = encWilling :: es) (h : s.FeedsEnc) :
    ∃ t, step s = .next t ∧ t.FeedsEnc := by
  obtain ⟨hl, henc, hdec⟩ := h
  have hbroken : brokenOffer encWilling s = none := brokenOffer_eq_none henc (by rw [hdec]; rfl)
  obtain ⟨t, ht, -⟩ := step_enc_eq hs hbroken
  obtain ⟨henc', hdec'⟩ := step_held hs ht
  have hin := encIn_step rfl hs rfl ht
  refine ⟨t, ht, (step_linked ht).trans hl, ?_, ?_⟩
  · rw [henc', encOffer_encWilling]
    exact offerKept_heldAfter fun hbeat => by simp [hin, hbeat]
  · rw [hdec', decOffer_encWilling hl]
    simp [heldAfter]

/-- An operation of ENC emits at most two symbols (R36 (c)). -/
theorem length_encOp_le (i : Instr) (r : EncRegs) : (encOp i r).2.length ≤ 2 := by
  have hpixel (p : Polarity) : (encPixel p r).2.length ≤ 2 := by
    unfold encPixel
    split <;> [split; skip] <;> simp
  cases i with
  | encPixd => exact hpixel .dark
  | encPixl => exact hpixel .light
  | encEof d => exact le_refl 2
  | _ => exact Nat.zero_le 2

/-- ENC is in the fault state, or within `n` edges of a willing HOST of the end of its input: three for a symbol to
consume, which are its own and those of the two symbols it may emit, and one for a symbol pending. -/
def State.EncWithin (n : Nat) (s : State) : Prop :=
  s.enc.err = true ∨ 3 * s.encIn.length + s.encPend.length ≤ n

/-- Every willing edge brings ENC nearer: only ENC at its end, or in the fault state, has no beat. -/
theorem encWithin_step {n : Nat} {s t : State} {es : List Edge} (hs : s.schedule = encWilling :: es)
    (hfeeds : s.FeedsEnc) (h : step s = .next t) (hn : s.EncWithin (n + 1)) : t.EncWithin n := by
  obtain ⟨hl, -⟩ := hfeeds
  unfold State.EncWithin at hn ⊢
  obtain ⟨-, -, hcase⟩ := cases_nextEdge hs (step_enc_cases h)
  obtain ⟨hreset, -⟩ | ⟨-, hpend, herr, w, hin, -, hpend', -⟩ | ⟨-, -, y, hpend, henc, hin, -⟩ |
    ⟨-, henc, hpend, hin, -, hoffer, haccept⟩ := hcase
  case inl => exact absurd hreset Bool.false_ne_true
  case inr.inl =>
    have hout := length_encOp_le (decodeEncIn w) s.enc
    rw [← hpend'] at hout
    rw [herr, hin, List.length_cons] at hn
    have hcount := hn.resolve_left Bool.false_ne_true
    exact .inr (by omega)
  case inr.inr.inl =>
    rw [hpend, List.length_cons] at hn
    rw [henc, hin]
    exact hn.imp_right fun _ => by omega
  case inr.inr.inr =>
    have hnone : s.encPend = [] := by
      by_contra hne
      simpa [encAccept, hl, encWilling] using haccept hne
    rw [henc, hin, hpend, hnone]
    cases herr : s.enc.err
    · have hempty : s.encIn = [] := List.head?_eq_none_iff.1 (hoffer ((encReady_iff s).2 ⟨hnone, herr⟩))
      exact .inr (by simp [hempty])
    · exact .inl rfl

/-- Settles O59: every willing edge keeps to the discipline and brings ENC nearer to its end. -/
theorem aWillingHostDrainsTheEncoder : Obligations.AWillingHostDrainsTheEncoder := by
  unfold Obligations.AWillingHostDrainsTheEncoder
  intro s n hl henc hdec hs hn
  obtain ⟨t, ht, hend⟩ := runSteps_countdown (Within := State.EncWithin) feedsEnc_step encWithin_step hs
    ⟨hl, by rw [henc]; rfl, hdec⟩ (.inr hn)
  exact ⟨t, ht, hend.imp_right fun h => by simpa using h⟩

/-! ### Draining DEC -/

/-- The HOST at an edge at which it offers a symbol to DEC and accepts one from it (R239). -/
def decWilling : Edge :=
  { encRst := false, decRst := false, encInValid := false, encOutReady := false, decInValid := true,
    decOutReady := true }

/-- The HOST keeps to the port discipline while it offers every symbol to DEC, and to ENC none. -/
def State.FeedsDec (s : State) : Prop :=
  s.linked = false ∧ offerKept s.decHeld s.decIn.head? = true ∧ s.encHeld = none

theorem decOffer_decWilling {s : State} (hl : s.linked = false) : decOffer decWilling s = s.decIn.head? := by
  simp [decOffer, hl, decWilling]

theorem encOffer_decWilling (s : State) : encOffer decWilling s = none := rfl

/-- A willing edge has a next state, and the HOST goes on keeping to the discipline. -/
theorem feedsDec_step {s : State} {es : List Edge} (hs : s.schedule = decWilling :: es) (h : s.FeedsDec) :
    ∃ t, step s = .next t ∧ t.FeedsDec := by
  obtain ⟨hl, hdec, henc⟩ := h
  have hbroken : brokenOffer decWilling s = none :=
    brokenOffer_eq_none (by rw [henc]; rfl) (by rw [decOffer_decWilling hl]; exact hdec)
  obtain ⟨t, ht, -⟩ := step_dec_eq hs hbroken
  obtain ⟨henc', hdec'⟩ := step_held hs ht
  have hin := decIn_step hl hs rfl ht
  refine ⟨t, ht, (step_linked ht).trans hl, ?_, ?_⟩
  · rw [hdec', decOffer_decWilling hl]
    exact offerKept_heldAfter fun hbeat => by simp [hin, hbeat]
  · rw [henc', encOffer_decWilling]
    simp [heldAfter]

/-- An operation of DEC emits at most 255 symbols. -/
theorem length_decOp_le (i : Instr) (pol : Polarity) : (decOp i pol).2.length ≤ 255 := by
  cases i with
  | decRun n =>
    have hlt : n.toNat < 256 := n.isLt
    rw [decOp, List.length_replicate]
    omega
  | decEof d => exact Nat.le_add_left 1 254
  | _ => exact Nat.zero_le 255

/-- DEC is within `n` edges of a willing HOST of the end of its input: 256 for a symbol to consume, which are its own
and those of the 255 pixels it may give, and one for a symbol still to be delivered. -/
def State.DecWithin (n : Nat) (s : State) : Prop := 256 * s.decIn.length + s.decPending.length ≤ n

/-- Every willing edge brings DEC nearer: only DEC at its end has no beat. -/
theorem decWithin_step {n : Nat} {s t : State} {es : List Edge} (hs : s.schedule = decWilling :: es)
    (hfeeds : s.FeedsDec) (h : step s = .next t) (hn : s.DecWithin (n + 1)) : t.DecWithin n := by
  obtain ⟨hl, -⟩ := hfeeds
  unfold State.DecWithin at hn ⊢
  obtain ⟨hreset, -⟩ | ⟨-, hready, w, hoffer, -, hrunPol, hrem, heof, hin, -⟩ |
    ⟨-, hready, -, -, hrunPol, hrem, heof, hin, -⟩ | ⟨-, -, hrunPol, hrem, heof, hin, -, hoffer, haccept⟩ :=
      cases_nextEdge hs (step_dec_cases h)
  case inl => exact absurd hreset Bool.false_ne_true
  case inr.inl =>
    obtain ⟨-, ws, hws⟩ := decOffer_own hl hoffer
    have hpending : t.decPending = (decOp (decodeDecIn w) s.decPol).2 :=
      (decPending_congr hrunPol hrem heof).trans (decPending_decLoad hready w)
    have hout := length_decOp_le (decodeDecIn w) s.decPol
    have hin' : t.decIn = ws := by simp [hin, hl, hws]
    rw [hws, List.length_cons] at hn
    rw [hpending, hin']
    omega
  case inr.inr.inl =>
    obtain ⟨y, hpending, -⟩ := decPending_decDeliver hready
    have hpending' : t.decPending = s.decDeliver.decPending :=
      decPending_congr (hrunPol.trans (decDeliver_decRunPol s).symm) hrem heof
    rw [hpending, List.length_cons] at hn
    rw [hpending', hin]
    omega
  case inr.inr.inr =>
    have hready : s.decReady = true := by
      by_contra hbusy
      simpa [decWilling] using haccept (Bool.eq_false_iff.2 hbusy)
    have hempty : s.decIn = [] := List.head?_eq_none_iff.1 ((decOffer_decWilling hl).symm.trans (hoffer hready))
    rw [hin, hempty, decPending_congr hrunPol hrem heof, (decPending_eq_nil s).2 hready]
    exact Nat.zero_le _

/-- Settles O60: every willing edge keeps to the discipline and brings DEC nearer to its end. -/
theorem aWillingHostDrainsTheDecoder : Obligations.AWillingHostDrainsTheDecoder := by
  unfold Obligations.AWillingHostDrainsTheDecoder
  intro s n hl henc hdec hs hn
  obtain ⟨t, ht, hend⟩ := runSteps_countdown (Within := State.DecWithin) feedsDec_step decWithin_step hs
    ⟨hl, by rw [hdec]; rfl, henc⟩ hn
  exact ⟨t, ht, by simpa [State.DecWithin] using hend⟩

end Sys2Proof.Machine
end

section
/-! PROOFS. The statements that cut across the families: the decoder and the encoder of selectors (R80 to R88), the
canonical lists (R85), what one operation does and leaves (R23, R59, R113 to R116), what the ports show and what one
edge does (R51, R64, R205, R242), the invariants and the ghost variables (R36, R39), and the HOST's account of what is
committed (R124, R240). -/

namespace Sys2Proof

/-! ### Port words as selectors -/

/-- R81: on `enc_in` a word is a pixel of one of the two levels, an invalid pixel, or a marker. -/
theorem encInWord_cases (w : PortWord) :
    (∃ p : Polarity, w = dataWord p.level) ∨ (∃ b : Byte, b ≠ 0 ∧ b ≠ 255 ∧ w = dataWord b) ∨
    ∃ d, w = eofWord d := by
  obtain ⟨b, rfl⟩ | hmarker := word_cases w
  · by_cases hdark : b = 0
    · exact .inl ⟨.dark, congrArg dataWord hdark⟩
    by_cases hlight : b = 255
    · exact .inl ⟨.light, congrArg dataWord hlight⟩
    exact .inr (.inl ⟨b, hdark, hlight, rfl⟩)
  · exact .inr (.inr hmarker)

theorem decodeEncIn_invalidPixel {b : Byte} (hdark : b ≠ 0) (hlight : b ≠ 255) :
    decodeEncIn (dataWord b) = .encPixbad b := by
  rw [decodeEncIn_dataWord, if_neg hdark, if_neg hlight]

/-- The operand range of `ENC.PIXBAD` (R81). -/
theorem wellFormed_encPixbad {b : Byte} : (Instr.encPixbad b).wellFormed = true ↔ b ≠ 0 ∧ b ≠ 255 := by
  simp [Instr.wellFormed]

/-- Settles O1: the decoder's value on each kind of word the encoder makes. -/
theorem encodeThenDecodeGivesTheOperation : Obligations.EncodeThenDecodeGivesTheOperation := by
  unfold Obligations.EncodeThenDecodeGivesTheOperation
  intro i hi
  cases i with
  | encPixbad b =>
    obtain ⟨hdark, hlight⟩ := wellFormed_encPixbad.1 hi
    exact decodeEncIn_invalidPixel hdark hlight
  | encEof d => exact decodeEncIn_eofWord d
  | decRun n => exact decodeDecIn_dataWord n
  | decEof d => exact decodeDecIn_eofWord d
  | encPixd | encPixl | encReset | frmEnc | frmDec | decReset => rfl

theorem encode_decodeEncIn (w : PortWord) :
    (decodeEncIn w).wellFormed = true ∧ encode (decodeEncIn w) = .encIn w := by
  obtain ⟨p, rfl⟩ | ⟨b, hdark, hlight, rfl⟩ | ⟨d, rfl⟩ := encInWord_cases w
  · cases p <;> exact ⟨rfl, rfl⟩
  · rw [decodeEncIn_invalidPixel hdark hlight]
    exact ⟨wellFormed_encPixbad.2 ⟨hdark, hlight⟩, rfl⟩
  · rw [decodeEncIn_eofWord]
    exact ⟨rfl, rfl⟩

theorem encode_decodeDecIn (w : PortWord) :
    (decodeDecIn w).wellFormed = true ∧ encode (decodeDecIn w) = .decIn w := by
  obtain ⟨n, rfl⟩ | ⟨d, rfl⟩ := word_cases w
  · rw [decodeDecIn_dataWord]
    exact ⟨rfl, rfl⟩
  · rw [decodeDecIn_eofWord]
    exact ⟨rfl, rfl⟩

/-- Settles O2: the words of each port by their kinds, and the other selectors as they stand. -/
theorem everySelectorIsTheEncodingOfItsOperation : Obligations.EverySelectorIsTheEncodingOfItsOperation := by
  unfold Obligations.EverySelectorIsTheEncodingOfItsOperation
  intro x
  cases x with
  | encIn w => exact encode_decodeEncIn w
  | decIn w => exact encode_decodeDecIn w
  | encRst | decRst | frame | unframe => exact ⟨rfl, rfl⟩

/-- The `eof` bit is the highest of the nine, so the markers are the words from `0x100` on (R80). -/
theorem symEof_eq_true_iff {w : PortWord} : symEof w = true ↔ 0x100 ≤ w := by
  have hmsb : symEof w = w.msb := by simp [symEof, BitVec.msb_eq_getLsbD_last]
  rw [hmsb, BitVec.msb_eq_decide, decide_eq_true_iff, BitVec.le_def]
  rfl

theorem symEof_eq_false_iff {w : PortWord} : symEof w = false ↔ w ≤ 0x0FF := by
  rw [← Bool.not_eq_true, symEof_eq_true_iff]
  bv_omega

theorem decodeEncIn_of_symEof {w : PortWord} (h : symEof w = true) : decodeEncIn w = .encEof (symData w) := by
  rw [← eofWord_symData h, decodeEncIn_eofWord, symData_eofWord]

theorem decodeDecIn_of_symEof {w : PortWord} (h : symEof w = true) : decodeDecIn w = .decEof (symData w) := by
  rw [← eofWord_symData h, decodeDecIn_eofWord, symData_eofWord]

theorem decodeDecIn_of_not_symEof {w : PortWord} (h : symEof w = false) : decodeDecIn w = .decRun (symData w) := by
  rw [← dataWord_symData h, decodeDecIn_dataWord, symData_dataWord]

/-- The words strictly between the two levels are the invalid pixels (R81). -/
theorem decodeEncIn_between {w : PortWord} (hlow : 0x001 ≤ w) (hhigh : w ≤ 0x0FE) :
    decodeEncIn w = .encPixbad (symData w) := by
  have hdata : dataWord (symData w) = w := dataWord_symData (symEof_eq_false_iff.2 (by bv_omega))
  have hdark : symData w ≠ 0 := fun h => by
    rw [← hdata, h] at hlow
    exact absurd hlow (by decide)
  have hlight : symData w ≠ 255 := fun h => by
    rw [← hdata, h] at hhigh
    exact absurd hhigh (by decide)
  rw [← hdata, decodeEncIn_invalidPixel (by simpa using hdark) (by simpa using hlight), symData_dataWord]

/-- Settles O3: the ranges are those of the `eof` bit and of the two levels. -/
theorem symbolRangesSelectTheOperations : Obligations.SymbolRangesSelectTheOperations := by
  unfold Obligations.SymbolRangesSelectTheOperations
  refine ⟨fun w => ⟨fun h => h ▸ rfl, fun h => h ▸ rfl, decodeEncIn_between, fun h => ?_, fun h => ?_, fun h => ?_⟩,
    rfl, rfl⟩
  · exact decodeEncIn_of_symEof (symEof_eq_true_iff.2 h)
  · exact decodeDecIn_of_not_symEof (symEof_eq_false_iff.2 h)
  · exact decodeDecIn_of_symEof (symEof_eq_true_iff.2 h)

theorem takes_allOnes (m : String) (p : Port) (k : Nat) (v w : PortWord) :
    SymRow.takes ⟨m, p, k, v, 0x1FF⟩ w = (w == v) := by
  rw [SymRow.takes, and_allOnes9]

theorem takes_eofBit_dataWord (m : String) (p : Port) (k : Nat) (v : PortWord) (b : Byte) :
    SymRow.takes ⟨m, p, k, v, 0x100⟩ (dataWord b) = (0 == v) := by
  rw [SymRow.takes, dataWord_and_eofMask]

theorem takes_eofBit_eofWord (m : String) (p : Port) (k : Nat) (v : PortWord) (d : Byte) :
    SymRow.takes ⟨m, p, k, v, 0x100⟩ (eofWord d) = (0x100 == v) := by
  rw [SymRow.takes, eofWord_and_eofMask]

/-- R88 on `enc_in`: the first of its rows that takes a word is the row of the operation the decoder gives. -/
theorem head?_rows_encIn (w : PortWord) :
    ((symRows.filter fun r => r.space == .encIn && r.takes w).map SymRow.mnemonic).head?
      = some (decodeEncIn w).mnemonic := by
  obtain ⟨p, rfl⟩ | ⟨b, hdark, hlight, rfl⟩ | ⟨d, rfl⟩ := encInWord_cases w
  · cases p <;> rfl
  · have h0 : (dataWord b == 0x000) = false := beq_false_of_ne fun h => hdark (dataWord_inj.1 h)
    have h255 : (dataWord b == 0x0FF) = false := beq_false_of_ne fun h => hlight (dataWord_inj.1 h)
    rw [decodeEncIn_invalidPixel hdark hlight]
    simp only [symRows, List.filter, takes_allOnes, takes_eofBit_dataWord, h0, h255]
    rfl
  · have hnot (b : Byte) : (eofWord d == dataWord b) = false :=
      beq_false_of_ne fun h => dataWord_ne_eofWord b d h.symm
    have h0 : (eofWord d == 0x000) = false := hnot 0
    have h255 : (eofWord d == 0x0FF) = false := hnot 255
    rw [decodeEncIn_eofWord]
    simp only [symRows, List.filter, takes_allOnes, takes_eofBit_eofWord, h0, h255]
    rfl

theorem head?_rows_decIn (w : PortWord) :
    ((symRows.filter fun r => r.space == .decIn && r.takes w).map SymRow.mnemonic).head?
      = some (decodeDecIn w).mnemonic := by
  obtain ⟨n, rfl⟩ | ⟨d, rfl⟩ := word_cases w
  · rw [decodeDecIn_dataWord]
    simp only [symRows, List.filter, takes_eofBit_dataWord]
    rfl
  · rw [decodeDecIn_eofWord]
    simp only [symRows, List.filter, takes_eofBit_eofWord]
    rfl

/-- The fourteen patterns are checked on each of the 512 words. -/
theorem length_pixbadPatterns_takes : ∀ w : PortWord, (pixbadPatterns.filter (·.takes w)).length
    = if 0x001 ≤ w ∧ w ≤ 0x0FE then 1 else 0 := by decide

/-- Settles O4: the rows of each port on each kind of word, and the fourteen patterns. -/
theorem opcodeTableRowsGiveTheDecoder : Obligations.OpcodeTableRowsGiveTheDecoder :=
  ⟨head?_rows_encIn, head?_rows_decIn, length_pixbadPatterns_takes⟩

/-- Settles O5: each word is evaluated. -/
theorem wordsWrittenOutSelectTheirOperations : Obligations.WordsWrittenOutSelectTheirOperations := by
  unfold Obligations.WordsWrittenOutSelectTheirOperations
  decide

/-! ### Level F -/

/-- Settles O46: the check is the conditions; a canonical list is the encoding of what it decodes to, and an encoding
is canonical. -/
theorem canonicalMeansEncodedFromPixels : Obligations.CanonicalMeansEncodedFromPixels := by
  unfold Obligations.CanonicalMeansEncodedFromPixels
  refine fun bs => ⟨isCanonical_iff, fun h => ?_, fun ⟨_, _, h⟩ => canonical_encodeFrame h⟩
  exact ⟨decodeFrame bs, validPixels_decodeFrom .dark bs, encodeFrame_decodeFrame_of_canonical h⟩

theorem validPixels_eq_false_iff {ps : List Byte} : validPixels ps = false ↔ ∃ p ∈ ps, p ≠ 0 ∧ p ≠ 255 := by
  simp [validPixels, validPixel]

/-- Settles O41: the streams with an encoding are the valid ones. -/
theorem encodeFailsExactlyOnAnInvalidPixel : Obligations.EncodeFailsExactlyOnAnInvalidPixel := by
  unfold Obligations.EncodeFailsExactlyOnAnInvalidPixel
  intro ps
  rw [← validPixels_eq_false_iff]
  cases hv : validPixels ps with
  | true => simp [encodeFrame_eq_framed_runLengths hv]
  | false =>
    cases hencode : encodeFrame ps with
    | bytes bs => simp [(encodeFrame_eq_bytes_iff.1 hencode).1] at hv
    | invalidPixelValue => simp

end Sys2Proof

namespace Sys2Proof.Machine

/-! ### The operations -/

theorem encReady_eq_false_iff (s : State) : s.encReady = false ↔ s.encPend ≠ [] ∨ s.enc.err = true := by
  rw [← Bool.not_eq_true, encReady_iff, not_and_or, Bool.not_eq_false]

/-- The symbol operations of ENC where it cannot consume a symbol (R51, R118). -/
theorem exec_of_not_encReady {s : State} (h : s.encReady = false) :
    exec .encPixd s = .next s ∧ exec .encPixl s = .next s ∧
    (∀ b, exec (.encPixbad b) s = .next s) ∧ (∀ d, exec (.encEof d) s = .next s) :=
  ⟨encInputBeat_wait h, encInputBeat_wait h, fun _ => encInputBeat_wait h, fun _ => encInputBeat_wait h⟩

/-- The symbol operations of DEC where it cannot consume a symbol (R51, R164). -/
theorem exec_of_not_decReady {s : State} (h : s.decReady = false) :
    (∀ n, exec (.decRun n) s = .next s) ∧ (∀ d, exec (.decEof d) s = .next s) :=
  ⟨fun _ => decInputBeat_wait h, fun _ => decInputBeat_wait h⟩

/-- Settles O17: a block with something pending, or in the fault state, is not ready. -/
theorem aBlockThatIsNotReadyPerformsNoOperation : Obligations.ABlockThatIsNotReadyPerformsNoOperation := by
  unfold Obligations.ABlockThatIsNotReadyPerformsNoOperation
  exact fun s => ⟨fun h => exec_of_not_encReady ((encReady_eq_false_iff s).2 h),
    fun h => exec_of_not_decReady ((decReady_eq_false_iff s).2 h)⟩

/-- In the fault state no symbol is accepted (R206). -/
theorem encReady_of_fault {s : State} (h : s.enc.err = true) : s.encReady = false :=
  (encReady_eq_false_iff s).2 (.inr h)

/-- The input beat of a pixel of level `p`, in the three cases of R113 and R114. -/
theorem encInputBeat_encPixel {s : State} (hpend : s.encPend = []) (herr : s.enc.err = false) (p : Polarity) :
    (s.enc.pol = p → s.enc.cnt.toNat < 255 →
      encInputBeat (encPixel p) s
        = .next { s with enc := { pol := p, cnt := s.enc.cnt + 1, err := false }, encPend := [] }) ∧
    (s.enc.pol = p → s.enc.cnt.toNat = 255 →
      encInputBeat (encPixel p) s
        = .next { s with enc := { pol := p, cnt := 1, err := false }, encPend := [.data 255, .data 0] }) ∧
    (s.enc.pol ≠ p →
      encInputBeat (encPixel p) s
        = .next { s with enc := { pol := p, cnt := 1, err := false }, encPend := [.data s.enc.cnt] }) := by
  rw [encInputBeat_ready ((encReady_iff s).2 ⟨hpend, herr⟩), ← herr]
  refine ⟨fun hp hc => ?continues, fun hp hc => ?spills, fun hp => ?breaks⟩
  case continues => rw [encPixel_continue hp hc, hp]
  case spills => rw [encPixel_spill hp hc, hp]
  case breaks => rw [encPixel_break hp]

/-- Settles O7: the three cases of a pixel, in dark polarity. -/
theorem darkPixelContinuesSpillsOrBreaks : Obligations.DarkPixelContinuesSpillsOrBreaks := by
  unfold Obligations.DarkPixelContinuesSpillsOrBreaks
  refine ⟨rfl, fun s => ⟨fun h => encInputBeat_wait (encReady_of_fault h), fun hpend herr => ?_⟩⟩
  obtain ⟨hcontinue, hspill, hbreak⟩ := encInputBeat_encPixel hpend herr .dark
  refine ⟨hcontinue, hspill, fun hlight => ⟨hbreak (by simp [hlight]), fun hinv hzero => ?_⟩⟩
  simp [hinv hzero] at hlight

/-- Settles O8: the three cases of a pixel, in light polarity. -/
theorem lightPixelContinuesSpillsOrBreaks : Obligations.LightPixelContinuesSpillsOrBreaks := by
  unfold Obligations.LightPixelContinuesSpillsOrBreaks
  refine ⟨rfl, fun s => ⟨fun h => encInputBeat_wait (encReady_of_fault h), fun hpend herr => ?_⟩⟩
  obtain ⟨hcontinue, hspill, hbreak⟩ := encInputBeat_encPixel hpend herr .light
  exact ⟨hcontinue, hspill, fun hdark => hbreak (by simp [hdark])⟩

/-- Settles O9: the input beat sets the flag, and in the fault state no symbol is accepted. -/
theorem invalidPixelEntersTheFaultState : Obligations.InvalidPixelEntersTheFaultState := by
  unfold Obligations.InvalidPixelEntersTheFaultState
  refine ⟨fun b => decodeEncIn_invalidPixel, fun b s t => ⟨fun h => encInputBeat_wait (encReady_of_fault h), ?_⟩⟩
  rintro hpend herr rfl
  exact ⟨encInputBeat_ready ((encReady_iff s).2 ⟨hpend, herr⟩), exec_of_not_encReady (encReady_of_fault rfl)⟩

/-- Settles O10: the input beat of the marker. -/
theorem eofEmitsTheLastRunAndTheMarker : Obligations.EofEmitsTheLastRunAndTheMarker := by
  unfold Obligations.EofEmitsTheLastRunAndTheMarker
  refine ⟨decodeEncIn_eofWord, fun d s => ⟨fun h => encInputBeat_wait (encReady_of_fault h), fun hpend herr => ?_⟩⟩
  rw [← herr]
  exact encInputBeat_ready ((encReady_iff s).2 ⟨hpend, herr⟩)

/-- The operations of ENC (R113 to R117). -/
def IsEncOp (i : Instr) : Prop :=
  i = .encPixd ∨ i = .encPixl ∨ (∃ b, i = .encPixbad b) ∨ (∃ d, i = .encEof d) ∨ i = .encReset

/-- The operations of DEC (R161 to R163). -/
def IsDecOp (i : Instr) : Prop := (∃ n, i = .decRun n) ∨ (∃ d, i = .decEof d) ∨ i = .decReset

theorem encInputBeat_cases {op : EncRegs → EncRegs × List PortSymbol} {s t : State}
    (h : encInputBeat op s = .next t) : t = s ∨ t = { s with enc := (op s.enc).1, encPend := (op s.enc).2 } := by
  cases hready : s.encReady with
  | false =>
    rw [encInputBeat_wait hready] at h
    cases h
    exact .inl rfl
  | true =>
    rw [encInputBeat_ready hready] at h
    cases h
    exact .inr rfl

theorem decInputBeat_cases {op : State → State} {s t : State} (h : decInputBeat op s = .next t) :
    t = s ∨ t = op s := by
  cases hready : s.decReady with
  | false =>
    rw [decInputBeat_wait hready] at h
    cases h
    exact .inl rfl
  | true =>
    rw [decInputBeat_ready hready] at h
    cases h
    exact .inr rfl

/-- The inversion of an operation: an operation of ENC leaves the state or gives ENC its Level O result; one of DEC
changes DEC's registers and nothing else; and one of FRM gives a value. -/
theorem exec_cases {i : Instr} {s t : State} (h : exec i s = .next t) :
    (IsEncOp i ∧ (t = s ∨ t = { s with enc := (encOp i s.enc).1, encPend := (encOp i s.enc).2 })) ∨
    (IsDecOp i ∧ ∃ pol runPol rem eof,
      t = { s with decPol := pol, decRunPol := runPol, decRem := rem, decPendEof := eof }) ∨
    ∃ v, t = { s with frm := v } := by
  cases i with
  | encPixd => exact .inl ⟨.inl rfl, encInputBeat_cases h⟩
  | encPixl => exact .inl ⟨.inr (.inl rfl), encInputBeat_cases h⟩
  | encPixbad b => exact .inl ⟨.inr (.inr (.inl ⟨b, rfl⟩)), encInputBeat_cases h⟩
  | encEof d => exact .inl ⟨.inr (.inr (.inr (.inl ⟨d, rfl⟩))), encInputBeat_cases h⟩
  | encReset =>
    cases h
    exact .inl ⟨.inr (.inr (.inr (.inr rfl))), .inr rfl⟩
  | decRun n =>
    obtain rfl | rfl := decInputBeat_cases h <;> exact .inr (.inl ⟨.inl ⟨n, rfl⟩, _, _, _, _, rfl⟩)
  | decEof d =>
    obtain rfl | rfl := decInputBeat_cases h <;> exact .inr (.inl ⟨.inr (.inl ⟨d, rfl⟩), _, _, _, _, rfl⟩)
  | decReset =>
    cases h
    exact .inr (.inl ⟨.inr (.inr rfl), _, _, _, _, rfl⟩)
  | frmEnc len =>
    cases h
    exact .inr (.inr ⟨_, rfl⟩)
  | frmDec bs =>
    cases hvalue : unframe bs with
    | none => simp [exec, execFrmDec, hvalue] at h
    | some len =>
      simp only [exec, execFrmDec, hvalue] at h
      cases h
      exact .inr (.inr ⟨_, rfl⟩)

/-- R23: of ENC's operations only `ENC.PIXBAD` and `ENC.RESET` write the fault flag. -/
theorem encOp_err (i : Instr) (r : EncRegs) :
    (encOp i r).1.err = r.err ∨ ((∃ b, i = .encPixbad b) ∧ (encOp i r).1.err = true) ∨
    (i = .encReset ∧ (encOp i r).1.err = false) := by
  cases i with
  | encPixd => exact .inl (encPixel_err .dark r)
  | encPixl => exact .inl (encPixel_err .light r)
  | encPixbad b => exact .inr (.inl ⟨⟨b, rfl⟩, rfl⟩)
  | encReset => exact .inr (.inr ⟨rfl, rfl⟩)
  | encEof | frmEnc | frmDec | decRun | decEof | decReset => exact .inl rfl

/-- Settles O18: an operation leaves the fault flag or writes it as its Level O form does. -/
theorem onlyPixbadSetsAndOnlyResetClearsTheFaultFlag :
    Obligations.OnlyPixbadSetsAndOnlyResetClearsTheFaultFlag := by
  unfold Obligations.OnlyPixbadSetsAndOnlyResetClearsTheFaultFlag
  intro i s t h
  have hflag : t.enc.err = s.enc.err ∨ t.enc.err = (encOp i s.enc).1.err := by
    obtain ⟨-, rfl | rfl⟩ | ⟨-, _, _, _, _, rfl⟩ | ⟨_, rfl⟩ := exec_cases h
    · exact .inl rfl
    · exact .inr rfl
    · exact .inl rfl
    · exact .inl rfl
  obtain hflag | hflag := hflag
  · simp +contextual [hflag]
  obtain hkeep | ⟨hbad, hset⟩ | ⟨hreset, hclear⟩ := encOp_err i s.enc
  · simp +contextual [hflag, hkeep]
  · rw [hflag, hset]
    exact ⟨fun _ _ => hbad, fun _ hclear => absurd hclear.symm Bool.false_ne_true⟩
  · rw [hflag, hclear]
    exact ⟨fun _ hset => absurd hset Bool.false_ne_true, fun _ _ => hreset⟩

/-- Settles O19: each case of an operation's inversion names the fields it may change. -/
theorem operationsKeepToTheirOwnBlock : Obligations.OperationsKeepToTheirOwnBlock := by
  unfold Obligations.OperationsKeepToTheirOwnBlock
  intro i s t h
  obtain ⟨henc, rfl | rfl⟩ | ⟨hdec, pol, runPol, rem, eof, rfl⟩ | ⟨v, rfl⟩ := exec_cases h
  · simp
  · unfold IsEncOp at henc
    exact ⟨⟨rfl, rfl, rfl, rfl⟩, .inr (.inr (.inr ⟨rfl, rfl, rfl, rfl⟩)), by tauto⟩
  · unfold IsDecOp at hdec
    exact ⟨⟨rfl, rfl, rfl, rfl⟩, by tauto, by simp⟩
  · simp

/-! ### The ports -/

/-- Settles O20: each signal is read off the registers. -/
theorem portSignalsFollowTheRegisters : Obligations.PortSignalsFollowTheRegisters := by
  unfold Obligations.PortSignalsFollowTheRegisters
  intro s rst
  refine ⟨?encInReady, ?encOutValid, fun y ys hp hr => ?encOutSym, ?decInReady, ?decOutValid,
    fun hrem hr => ?pixel, fun hrem heof hr => ?marker, rfl⟩
  case encInReady => simp [encInReady, encReady_iff, and_assoc]
  case encOutValid => simp [encOutValid]
  case encOutSym => simp [encOutSym, encOutValid, hp, hr]
  case decInReady => simp [decInReady, decReady_iff, and_assoc]
  case decOutValid => simp [decOutValid, decReady_eq_false_iff]
  case pixel =>
    have hready : s.decReady = false := (decReady_eq_false_iff s).2 (.inl hrem)
    have hnext : s.decNext = some (.data s.decRunPol.level) := if_pos hrem
    simp [decOutSym, decOutValid, hready, hr, hnext, bits_data]
  case marker =>
    have hready : s.decReady = false := (decReady_eq_false_iff s).2 (.inr heof)
    have hnext : s.decNext = some .eof := by simp [State.decNext, hrem, heof]
    simp [decOutSym, decOutValid, hready, hr, hnext, PortSymbol.bits]

/-- An input beat needs a block that is ready and not reset. -/
theorem encReady_of_encInBeat {e : Edge} {s : State} (h : (encInBeat e s).isSome = true) :
    s.encReady = true ∧ e.encRst = false := by
  cases hready : encInReady e.encRst s with
  | false => simp [encInBeat, hready] at h
  | true => simpa [encInReady] using hready

theorem decReady_of_decInBeat {e : Edge} {s : State} (h : (decInBeat e s).isSome = true) :
    s.decReady = true ∧ e.decRst = false := by
  cases hready : decInReady e.decRst s with
  | false => simp [decInBeat, hready] at h
  | true => simpa [decInReady] using hready

/-- An output beat needs something pending and no reset. -/
theorem encPend_of_encOutBeat {e : Edge} {s : State} (h : encOutBeat e s = true) :
    s.encPend ≠ [] ∧ e.encRst = false := by
  obtain ⟨hvalid, -⟩ : encOutValid e.encRst s = true ∧ _ := (Bool.and_eq_true _ _).mp h
  simpa [encOutValid] using hvalid

theorem decReady_of_decOutBeat {e : Edge} {s : State} (h : decOutBeat e s = true) :
    s.decReady = false ∧ e.decRst = false := by
  obtain ⟨hvalid, -⟩ : decOutValid e.decRst s = true ∧ _ := (Bool.and_eq_true _ _).mp h
  simpa [decOutValid] using hvalid

/-- Settles O21: what an input beat and an output beat need of a block excludes each other, and both need its reset
signal at 0. -/
theorem noBlockHasTwoBeatsAtOneEdge : Obligations.NoBlockHasTwoBeatsAtOneEdge := by
  unfold Obligations.NoBlockHasTwoBeatsAtOneEdge
  refine fun e s => ⟨fun ⟨hin, hout⟩ => ?enc, fun ⟨hin, hout⟩ => ?dec, fun hr => ?encReset, fun hr => ?decReset⟩
  case enc =>
    exact (encPend_of_encOutBeat hout).1 ((encReady_iff s).1 (encReady_of_encInBeat hin).1).1
  case dec =>
    exact Bool.false_ne_true ((decReady_of_decOutBeat hout).1.symm.trans (decReady_of_decInBeat hin).1)
  case encReset => simp [encInBeat, encInReady, encOutBeat, encOutValid, hr]
  case decReset => simp [decInBeat, decInReady, decOutBeat, decOutValid, hr]

/-! ### The step -/

/-- Settles O24: DEC's symbol is taken from `dec_in` first, and then both parts of the edge are input beats. -/
theorem stepRunsBothBlocksAtOneEdge : Obligations.StepRunsBothBlocksAtOneEdge := by
  unfold Obligations.StepRunsBothBlocksAtOneEdge
  intro s e es v w vs ws hs hb hre hve hine hpend herr hrd hvd hl hind hrem heof
  have hencBeat : encInBeat e s = some v :=
    (encInBeat_of_encReady hre ((encReady_iff s).2 ⟨hpend, herr⟩)).trans (by simp [encOffer, hve, hine])
  have hdecBeat : decInBeat e s = some w :=
    (decInBeat_of_decReady hrd ((decReady_iff s).2 ⟨hrem, heof⟩)).trans (by simp [decOffer, hl, hvd, hind])
  rw [step_decInput hs hb hl (decAction_of_decInBeat hrd hdecBeat), encAction_of_encInBeat hre hencBeat]
  simp only [encAct, State.atEdge, State.popDecIn, State.popEncIn, hencBeat, hdecBeat, heldAfter_some, hine, hind,
    List.tail_cons]

/-- Settles O25: ENC has an output beat where DEC is ready, and the word it delivers is the one DEC consumes; where
DEC is not ready, neither has a beat on the wire. -/
theorem stepCarriesASymbolOverTheWire : Obligations.StepCarriesASymbolOverTheWire := by
  unfold Obligations.StepCarriesASymbolOverTheWire
  intro s e es y ys hs hb hre hrd hl hp
  obtain ⟨haccept, hdeliver, -, -, hnext⟩ := encOutputBeatDeliversTheHead s e es y ys hs hb hre hp
  rw [if_pos hl] at haccept
  refine ⟨fun hrem heof => ?ready, fun hbusy => ?busy⟩
  case ready =>
    have hready : s.decReady = true := (decReady_iff s).2 ⟨hrem, heof⟩
    have hacc : encAccept e s = true := by simp [haccept, decInReady, hready, hrd]
    have hbeat : decInBeat e s = some y.bits := by
      rw [decInBeat_of_linked hl]
      simp [encOutWord, encOutBeat, encOutValid, encOutSym, hre, hp, hacc]
    rw [hdeliver hacc, hbeat, heldAfter_some, decAction_of_decInBeat hrd hbeat, decAct, if_pos hl]
  case busy =>
    have hacc : encAccept e s = false := by simp [haccept, decInReady, (decReady_eq_false_iff s).2 hbusy]
    obtain ⟨t, ht, henc, hin, -, hwait⟩ := hnext
    exact ⟨t, ht, henc, (hwait hacc).1, hin, (hwait hacc).2⟩

/-- Settles O28: at an edge with its reset signal at 1 a block has no case but its reset. -/
theorem resetWinsOverEverythingAtItsEdge : Obligations.ResetWinsOverEverythingAtItsEdge := by
  unfold Obligations.ResetWinsOverEverythingAtItsEdge
  intro s e es hs hb
  obtain ⟨t, ht, henc, hpend, hencIn, hencOut⟩ := step_enc_eq hs hb
  refine ⟨t, ht, fun hr => ?enc, fun hr => ?dec⟩
  case enc =>
    have haction : encAction e s = .reset := by simp [encAction, hr]
    rw [henc, hpend, hencIn, hencOut, haction]
    exact ⟨rfl, rfl, rfl, rfl⟩
  case dec =>
    have haction : decAction e s = .reset := by simp [decAction, hr]
    obtain ⟨u, hu, hpol, hrunPol, hrem, heof, hin, hout⟩ := step_dec_eq hs hb
    obtain rfl : t = u := Host.Outcome.next.inj (ht.symm.trans hu)
    rw [hpol, hrunPol, hrem, heof, hin, hout, haction]
    exact ⟨rfl, rfl, rfl, rfl, rfl, rfl⟩

/-- A step at which the HOST breaks the discipline is refused (R242). -/
theorem step_broken {s : State} {e : Edge} {es : List Edge} {p : Port} (hs : s.schedule = e :: es)
    (hb : brokenOffer e s = some p) : step s = .refused (.portDiscipline p) := by
  rw [step_cons hs, clockEdge_broken]
  exact hb

/-- A step without a broken offer takes its edge off the schedule. -/
theorem step_kept {s : State} {e : Edge} {es : List Edge} (hs : s.schedule = e :: es)
    (hb : brokenOffer e s = none) : ∃ t, step s = .next t ∧ t.schedule = es := by
  obtain ⟨t, ht, -⟩ := step_enc_eq hs hb
  obtain ⟨hes, -⟩ := cases_nextEdge hs (step_enc_cases ht)
  exact ⟨t, ht, hes⟩

/-- Settles O31: with no edge the state stays, with the offers kept there is a next state, and otherwise the step is
refused. -/
theorem stepStopsOnlyOnABrokenOffer : Obligations.StepStopsOnlyOnABrokenOffer := by
  unfold Obligations.StepStopsOnlyOnABrokenOffer
  refine fun s => ⟨step_nil, fun e es => step_kept, fun r => (nomatch r), fun r h => ?_⟩
  cases hs : s.schedule with
  | nil => simp [step_nil hs] at h
  | cons e es =>
    cases hb : brokenOffer e s with
    | none =>
      obtain ⟨t, ht, -⟩ := step_kept hs hb
      simp [ht] at h
    | some p => exact ⟨e, es, p, rfl, hb, Host.Outcome.refused.inj (h.symm.trans (step_broken hs hb))⟩

/-- An offer that stands and is not made again is not kept. -/
theorem offerKept_eq_false {offer : Option PortWord} {w : PortWord} (h : offer ≠ some w) :
    offerKept (some w) offer = false := by
  simp [offerKept, h]

/-- Settles O30: an offer dropped on `enc_in` is found first; one dropped on `dec_in` is found there or hidden by a
breach on `enc_in`. -/
theorem aBrokenOfferIsRefused : Obligations.ABrokenOfferIsRefused := by
  unfold Obligations.ABrokenOfferIsRefused
  refine fun s e es w hs => ⟨fun hheld hoffer => ?enc, fun hl hheld hoffer => ?dec⟩
  case enc =>
    have hbroken := offerKept_eq_false hoffer
    exact step_broken hs (by simp [brokenOffer, hheld, hbroken])
  case dec =>
    have hbroken := offerKept_eq_false hoffer
    cases henc : offerKept s.encHeld (encOffer e s) with
    | false => exact ⟨.encIn, step_broken hs (by simp [brokenOffer, henc])⟩
    | true => exact ⟨.decIn, step_broken hs (by simp [brokenOffer, henc, hheld, hbroken, hl])⟩

/-- Settles O32: both parts of an edge always have a next state, and they commute. -/
theorem theOrderOfTheBlocksAtAnEdgeDoesNotMatter : Obligations.TheOrderOfTheBlocksAtAnEdgeDoesNotMatter := by
  unfold Obligations.TheOrderOfTheBlocksAtAnEdgeDoesNotMatter
  intro a b s
  rw [encAct_eq, decAct_eq, andThen_next, andThen_next, encAct_eq, decAct_eq, encAfter_decAfter]

/-! ### Neither block's step depends on the other -/

/-- The state `s` with DEC's registers and streams as `u` has them. -/
def State.withDec (s u : State) : State :=
  { s with
    decPol := u.decPol, decRunPol := u.decRunPol, decRem := u.decRem, decPendEof := u.decPendEof
    decIn := u.decIn, decOut := u.decOut }

theorem decLoad_withDec (w : PortWord) (s u : State) : (s.withDec u).decLoad w = s.withDec (u.decLoad w) := by
  unfold State.decLoad
  split <;> rfl

/-- DEC's part of an edge reads and writes DEC's own fields alone, and whether the blocks are wired together. -/
theorem decAfter_withDec (b : BlockAction) {s u : State} (hl : s.linked = u.linked) :
    decAfter b (s.withDec u) = s.withDec (decAfter b u) := by
  cases b with
  | reset => rfl
  | input w =>
    have hready : (s.withDec u).decReady = u.decReady := rfl
    have hlinked : (s.withDec u).linked = u.linked := hl
    simp only [decAfter, hready, hlinked]
    split
    · split
      · exact decLoad_withDec w s u
      · exact decLoad_withDec w s u.popDecIn
    · split <;> rfl
  | output =>
    have hrem : (s.withDec u).decRem = u.decRem := rfl
    have heof : (s.withDec u).decPendEof = u.decPendEof := rfl
    simp only [decAfter, State.decDeliver, hrem, heof]
    split <;> [skip; split] <;> rfl
  | wait => rfl

/-- Of an edge that does not wire the blocks together ENC sees its own signals alone. -/
theorem encAction_congr {e₁ e₂ : Edge} {s₁ s₂ : State} (hl₁ : s₁.linked = false) (hl₂ : s₂.linked = false)
    (hrst : e₁.encRst = e₂.encRst) (hvalid : e₁.encInValid = e₂.encInValid) (hready : e₁.encOutReady = e₂.encOutReady)
    (henc : s₁.enc = s₂.enc) (hpend : s₁.encPend = s₂.encPend) (hin : s₁.encIn = s₂.encIn) :
    encAction e₁ s₁ = encAction e₂ s₂ := by
  have hinput : encInBeat e₁ s₁ = encInBeat e₂ s₂ := by
    simp [encInBeat, encInReady, State.encReady, encOffer, hrst, hvalid, henc, hpend, hin]
  have houtput : encOutBeat e₁ s₁ = encOutBeat e₂ s₂ := by
    simp [encOutBeat, encOutValid, encAccept, hl₁, hl₂, hrst, hready, hpend]
  rw [encAction, encAction, hrst, hinput, houtput]

/-- Of such an edge DEC sees its own signals alone. -/
theorem decAction_congr {e₁ e₂ : Edge} {s₁ s₂ : State} (hl₁ : s₁.linked = false) (hl₂ : s₂.linked = false)
    (hrst : e₁.decRst = e₂.decRst) (hvalid : e₁.decInValid = e₂.decInValid) (hready : e₁.decOutReady = e₂.decOutReady)
    (hrem : s₁.decRem = s₂.decRem) (heof : s₁.decPendEof = s₂.decPendEof) (hin : s₁.decIn = s₂.decIn) :
    decAction e₁ s₁ = decAction e₂ s₂ := by
  have hinput : decInBeat e₁ s₁ = decInBeat e₂ s₂ := by
    simp [decInBeat, decInReady, State.decReady, decOffer, hl₁, hl₂, hrst, hvalid, hrem, heof, hin]
  have houtput : decOutBeat e₁ s₁ = decOutBeat e₂ s₂ := by
    simp only [decOutBeat, decOutValid, State.decReady, hrst, hready, hrem, heof]
  rw [decAction, decAction, hrst, hinput, houtput]

/-- What a step without a wire leaves of ENC, in any surroundings `u`, is ENC's own part of the edge on ENC alone. -/
theorem withEnc_step {s t : State} {e : Edge} {es : List Edge} (hs : s.schedule = e :: es) (h : step s = .next t)
    (u : State) : u.withEnc t = encAfter (encAction e s) (u.withEnc s) := by
  obtain ⟨hb, -⟩ := cases_nextEdge hs (step_cases h)
  obtain ⟨t', ht', henc, hpend, hin, hout⟩ := step_enc_eq hs hb
  obtain rfl : t = t' := Host.Outcome.next.inj (h.symm.trans ht')
  rw [State.withEnc, henc, hpend, hin, hout]
  exact (encAfter_withEnc (encAction e s) u ({ s with schedule := es }.noteOffers e)).symm

/-- The same of DEC. -/
theorem withDec_step {s t u : State} {e : Edge} {es : List Edge} (hs : s.schedule = e :: es) (h : step s = .next t)
    (hl : u.linked = s.linked) : u.withDec t = decAfter (decAction e s) (u.withDec s) := by
  obtain ⟨hb, -⟩ := cases_nextEdge hs (step_cases h)
  obtain ⟨t', ht', hpol, hrunPol, hrem, heof, hin, hout⟩ := step_dec_eq hs hb
  obtain rfl : t = t' := Host.Outcome.next.inj (h.symm.trans ht')
  rw [State.withDec, hpol, hrunPol, hrem, heof, hin, hout]
  exact (decAfter_withDec (decAction e s) (s := u) (u := s.atEdge e es) hl).symm

/-- Settles O33: two states that agree on a block are the same block in the surroundings of reset, and have the same
action there. -/
theorem blocksDoNotInterfere : Obligations.BlocksDoNotInterfere := by
  unfold Obligations.BlocksDoNotInterfere
  intro s₁ s₂ t₁ t₂ e₁ e₂ es₁ es₂ hs₁ hs₂ hl₁ hl₂ h₁ h₂
  constructor
  case left =>
    intro hrst hvalid hready hpol hrunPol hrem heof hin hout
    have hsame : State.reset.withDec s₁ = State.reset.withDec s₂ := by
      simp only [State.withDec, hpol, hrunPol, hrem, heof, hin, hout]
    have hnext : State.reset.withDec t₁ = State.reset.withDec t₂ := by
      rw [withDec_step hs₁ h₁ hl₁.symm, withDec_step hs₂ h₂ hl₂.symm, hsame,
        decAction_congr hl₁ hl₂ hrst hvalid hready hrem heof hin]
    simpa [State.withDec] using hnext
  case right =>
    intro hrst hvalid hready henc hpend hin hout
    have hsame : State.reset.withEnc s₁ = State.reset.withEnc s₂ := by
      simp only [State.withEnc, henc, hpend, hin, hout]
    have hnext : State.reset.withEnc t₁ = State.reset.withEnc t₂ := by
      rw [withEnc_step hs₁ h₁, withEnc_step hs₂ h₂, hsame,
        encAction_congr hl₁ hl₂ hrst hvalid hready henc hpend hin]
    simpa [State.withEnc] using hnext

/-! ### The invariants of reachable states -/

/-- Settles O34: at reset the polarity is dark and every list is empty. -/
theorem invariantsHoldAtReset : Obligations.InvariantsHoldAtReset := by
  unfold Obligations.InvariantsHoldAtReset
  exact ⟨fun _ => rfl, Nat.zero_le _, fun _ => rfl, fun h => h.1 rfl, by simp [drivenWords, State.reset],
    by simp [State.reset]⟩

/-- A pixel leaves a count above 0 (R36 (b)). -/
theorem encPixel_cnt_ne_zero (p : Polarity) (r : EncRegs) : (encPixel p r).1.cnt ≠ 0 := by
  by_cases hp : r.pol = p
  · by_cases hc : r.cnt.toNat < 255
    · rw [encPixel_continue hp hc]
      bv_omega
    · rw [encPixel_spill hp (by omega)]
      exact of_decide_eq_false rfl
  · rw [encPixel_break hp]
    exact of_decide_eq_false rfl

/-- Every symbol of `enc_in` keeps the invariant of ENC's registers. -/
theorem inv_encOp {r : EncRegs} (h : r.Inv) (w : PortWord) : (encOp (decodeEncIn w) r).1.Inv := by
  obtain ⟨p, rfl⟩ | ⟨b, hdark, hlight, rfl⟩ | ⟨d, rfl⟩ := encInWord_cases w
  · rw [encOp_level]
    exact fun hzero => absurd hzero (encPixel_cnt_ne_zero p r)
  · rw [encOp_invalidPixel hdark hlight]
    exact h
  · rw [encOp_eof]
    exact fun _ => rfl

/-- A symbol of `enc_in` that sets the fault flag emits nothing (R115). -/
theorem encOp_emits_nothing_at_fault {r : EncRegs} (herr : r.err = false) {w : PortWord}
    (h : (encOp (decodeEncIn w) r).1.err = true) : (encOp (decodeEncIn w) r).2 = [] := by
  obtain ⟨p, rfl⟩ | ⟨b, hdark, hlight, rfl⟩ | ⟨d, rfl⟩ := encInWord_cases w
  · rw [encOp_level, encPixel_err, herr] at h
    exact absurd h Bool.false_ne_true
  · rw [encOp_invalidPixel hdark hlight]
  · rw [encOp_eof] at h
    exact absurd (herr.symm.trans h) Bool.false_ne_true

/-- The word of a symbol is one the hardware drives (R80). -/
theorem ofBits_bits (y : PortSymbol) : PortSymbol.ofBits y.bits = y := by
  cases y with
  | data b => rw [bits_data, ofBits_of_not_symEof (symEof_dataWord b), symData_dataWord]
  | eof => rfl

theorem drivenWords_concat {ws : List PortWord} (h : drivenWords ws) (y : PortSymbol) :
    drivenWords (ws ++ [y.bits]) := by
  refine List.forall_mem_append.2 ⟨h, List.forall_mem_singleton.2 ?_⟩
  rw [ofBits_bits]

/-- What the invariants say of ENC. -/
def State.EncInv (s : State) : Prop :=
  s.enc.Inv ∧ s.encPend.length ≤ Config.pendMax ∧ (s.enc.err = true → s.encPend = []) ∧ drivenWords s.encOut

/-- What the invariants say of DEC. -/
def State.DecInv (s : State) : Prop :=
  ¬(s.decRem ≠ 0 ∧ s.decPendEof = true) ∧ ∀ w ∈ s.decOut, w = 0x000 ∨ w = 0x0FF ∨ w = 0x100

/-- The invariants of a state are those of its two blocks. -/
theorem inv_iff (s : State) : s.Inv ↔ s.EncInv ∧ s.DecInv := by
  unfold State.Inv State.EncInv State.DecInv
  tauto

theorem encInv_step {s t : State} (hinv : s.EncInv) (h : step s = .next t) : t.EncInv := by
  obtain ⟨-, rfl⟩ | ⟨e, es, -, -, -, hcase⟩ := step_enc_cases h
  · exact hinv
  obtain ⟨hregs, hlen, hfault, hdriven⟩ := hinv
  unfold State.EncInv
  obtain ⟨-, henc, hpend, -, hout⟩ | ⟨-, -, herr, w, -, henc, hpend, hout⟩ | ⟨-, -, y, hpend, henc, -, hout⟩ |
    ⟨-, henc, hpend, -, hout, -⟩ := hcase <;> rw [henc, hout]
  case inl =>
    rw [hpend]
    exact ⟨fun _ => rfl, Nat.zero_le _, fun _ => rfl, hdriven⟩
  case inr.inl =>
    rw [hpend]
    exact ⟨inv_encOp hregs w, length_encOp_le _ _, encOp_emits_nothing_at_fault herr, hdriven⟩
  case inr.inr.inl =>
    rw [hpend] at hlen hfault
    refine ⟨hregs, Nat.le_of_succ_le hlen, fun herr => absurd (hfault herr) (List.cons_ne_nil _ _),
      drivenWords_concat hdriven y⟩
  case inr.inr.inr =>
    rw [hpend]
    exact ⟨hregs, hlen, hfault, hdriven⟩

/-- What DEC has to deliver once it has consumed a symbol is a run or the marker, not both (R36 (d)). -/
theorem decLoad_run_or_marker {s : State} (h : s.decReady = true) (w : PortWord) :
    (s.decLoad w).decRem = 0 ∨ (s.decLoad w).decPendEof = false := by
  obtain ⟨hrem, heof⟩ := (decReady_iff s).1 h
  obtain ⟨n, rfl⟩ | ⟨d, rfl⟩ := word_cases w
  · rw [decLoad_dataWord]
    exact .inr heof
  · rw [decLoad_eofWord]
    exact .inl hrem

/-- An output beat of DEC keeps its invariants: what it delivers is a level or the marker (R167). -/
theorem decInv_decDeliver {s : State} (hinv : s.DecInv) (h : s.decReady = false) : s.decDeliver.DecInv := by
  obtain ⟨hpending, hwords⟩ := hinv
  by_cases hrem : s.decRem = 0
  · have heof : s.decPendEof = true := ((decReady_eq_false_iff s).1 h).resolve_left (absurd hrem)
    rw [decDeliver_eof hrem heof]
    exact ⟨fun hboth => absurd hboth.2 Bool.false_ne_true,
      List.forall_mem_append.2 ⟨hwords, List.forall_mem_singleton.2 (.inr (.inr rfl))⟩⟩
  · have heof : s.decPendEof = false := Bool.eq_false_iff.2 fun heof => hpending ⟨hrem, heof⟩
    have hword : dataWord s.decRunPol.level = 0x000 ∨ dataWord s.decRunPol.level = 0x0FF := by
      cases s.decRunPol
      · exact .inl rfl
      · exact .inr rfl
    rw [decDeliver_run hrem]
    exact ⟨fun hboth => absurd (heof.symm.trans hboth.2) Bool.false_ne_true,
      List.forall_mem_append.2 ⟨hwords, List.forall_mem_singleton.2 (by tauto)⟩⟩

theorem decInv_step {s t : State} (hinv : s.DecInv) (h : step s = .next t) : t.DecInv := by
  obtain ⟨-, rfl⟩ | ⟨e, es, -, hcase⟩ := step_dec_cases h
  · exact hinv
  obtain ⟨-, -, -, hrem, -, -, hout⟩ | ⟨-, hready, w, -, -, -, hrem, heof, -, hout⟩ |
    ⟨-, hready, -, -, -, hrem, heof, -, hout⟩ | ⟨-, -, -, hrem, heof, -, hout, -⟩ := hcase
  case inl => exact ⟨fun hboth => hboth.1 hrem, hout ▸ hinv.2⟩
  case inr.inl =>
    refine ⟨fun ⟨hrun, hmarker⟩ => ?_, hout ▸ hinv.2⟩
    obtain hzero | hnone := decLoad_run_or_marker hready w
    · exact hrun (hrem.trans hzero)
    · exact Bool.false_ne_true ((heof.trans hnone).symm.trans hmarker)
  case inr.inr.inl =>
    have hdeliver := decInv_decDeliver hinv hready
    unfold State.DecInv at hdeliver ⊢
    rwa [hrem, heof, hout]
  case inr.inr.inr =>
    unfold State.DecInv at hinv ⊢
    rwa [hrem, heof, hout]

/-- Settles O35: a step keeps the invariants of each block. -/
theorem everyStepKeepsTheInvariants : Obligations.EveryStepKeepsTheInvariants := by
  unfold Obligations.EveryStepKeepsTheInvariants
  intro s t hinv h
  obtain ⟨henc, hdec⟩ := (inv_iff s).1 hinv
  exact (inv_iff t).2 ⟨encInv_step henc h, decInv_step hdec h⟩

/-- Settles O36: with `err` at 1 nothing is pending, so no beat is possible and only the reset case of a step changes
ENC. -/
theorem onlyResetLeavesTheFaultState : Obligations.OnlyResetLeavesTheFaultState := by
  unfold Obligations.OnlyResetLeavesTheFaultState
  intro s hinv hfault
  obtain ⟨⟨-, -, hempty, -⟩, -⟩ := (inv_iff s).1 hinv
  have hpend : s.encPend = [] := hempty hfault
  refine ⟨fun rst => ⟨by simp [encInReady, State.encReady, hfault], by simp [encOutValid, hpend]⟩, hfault, ?_⟩
  intro e es t hs h
  obtain ⟨-, -, hcase⟩ := cases_nextEdge hs (step_enc_cases h)
  obtain ⟨hreset, henc, -⟩ | ⟨-, -, herr, -⟩ | ⟨-, -, y, hcons, -⟩ | ⟨hr, henc, hpend', hin, hout, -⟩ := hcase
  case inl => exact ⟨fun hr => absurd (hr.symm.trans hreset) Bool.false_ne_true, fun _ => henc⟩
  case inr.inl => exact absurd (herr.symm.trans hfault) Bool.false_ne_true
  case inr.inr.inl => exact absurd (hpend.symm.trans hcons) (List.cons_ne_nil _ _).symm
  case inr.inr.inr =>
    exact ⟨fun _ => ⟨henc, hpend'.trans hpend, hin, hout⟩,
      fun hreset => absurd (hr.symm.trans hreset) Bool.false_ne_true⟩

/-! ### The ghost variables -/

/-- Where the ghosts agree with the count register, it is 0 exactly at the start of a frame (R36 (b)): the length
left of a run after its pairs is at least 1. -/
theorem cnt_eq_zero_iff_of_agrees {g : EncGhost} {r : EncRegs} (h : g.agrees r) : r.cnt = 0 ↔ g.ltrue = 0 := by
  obtain ⟨hcount, hstart, hrun⟩ := h
  have hzero : r.cnt = 0 ↔ r.cnt.toNat = 0 := BitVec.toNat_eq
  rw [hzero]
  by_cases hl : g.ltrue = 0
  · have hspills := hstart hl
    omega
  · have hspills := hrun hl
    omega

/-- A pixel keeps the ghosts and the count register in agreement: the count is 255 exactly where the operation
spills. -/
theorem agrees_pixel {g : EncGhost} {r : EncRegs} (h : g.agrees r) (p : Polarity) :
    (g.pixel p r).agrees (encPixel p r).1 := by
  obtain ⟨hcount, hstart, hrun⟩ := h
  by_cases hp : r.pol = p
  · by_cases hc : r.cnt.toNat < 255
    · have hsucc : (r.cnt + 1).toNat = r.cnt.toNat + 1 := by
        rw [BitVec.toNat_add]
        exact Nat.mod_eq_of_lt (by simp; omega)
      rw [EncGhost.pixel, if_pos hp, encPixel_continue hp hc]
      unfold EncGhost.agrees
      dsimp only
      rw [hsucc, if_pos rfl]
      omega
    · have hfull : r.cnt.toNat = 255 := by omega
      have hone : (1 : BitVec 8).toNat = 1 := rfl
      rw [EncGhost.pixel, if_pos hp, encPixel_spill hp hfull]
      unfold EncGhost.agrees
      dsimp only
      rw [hone, if_neg (List.cons_ne_nil _ _)]
      omega
  · rw [EncGhost.pixel, if_neg hp, encPixel_break hp]
    exact ⟨rfl, by simp, by simp⟩

/-- So does every symbol of `enc_in`. -/
theorem agrees_consume {g : EncGhost} {r : EncRegs} (h : g.agrees r) (w : PortWord) :
    (g.consume w r).agrees (encOp (decodeEncIn w) r).1 := by
  obtain ⟨p, rfl⟩ | ⟨b, hdark, hlight, rfl⟩ | ⟨d, rfl⟩ := encInWord_cases w
  · rw [encOp_level]
    cases p
    · exact agrees_pixel h .dark
    · exact agrees_pixel h .light
  · rw [encOp_invalidPixel hdark hlight, EncGhost.consume, decodeEncIn_dataWord, if_neg hdark, if_neg hlight]
    exact h
  · rw [encOp_eof, EncGhost.consume, decodeEncIn_eofWord]
    exact ⟨rfl, fun _ => rfl, fun hne => absurd rfl hne⟩

/-- Every symbol of `enc_in` counts 1 on the input side and its output list on the output side (R39). -/
theorem consume_positions (g : EncGhost) (w : PortWord) (r : EncRegs) :
    (g.consume w r).ipos = g.ipos + 1 ∧
    (g.consume w r).opos = g.opos + (encOp (decodeEncIn w) r).2.length := by
  have hpixel (p : Polarity) : (g.pixel p r).ipos = g.ipos ∧ (g.pixel p r).opos = g.opos := by
    unfold EncGhost.pixel
    split <;> exact ⟨rfl, rfl⟩
  have hrun : (g.run (decodeEncIn w) r).ipos = g.ipos ∧ (g.run (decodeEncIn w) r).opos = g.opos := by
    obtain ⟨p, rfl⟩ | ⟨b, hdark, hlight, rfl⟩ | ⟨d, rfl⟩ := encInWord_cases w
    · cases p
      · exact hpixel .dark
      · exact hpixel .light
    · rw [decodeEncIn_dataWord, if_neg hdark, if_neg hlight]
      exact ⟨rfl, rfl⟩
    · rw [decodeEncIn_eofWord]
      exact ⟨rfl, rfl⟩
  simp [EncGhost.consume, hrun]

/-- R39 along a run of ENC, from ghosts that agree with the registers. -/
theorem encGhostRun_follows {g : EncGhost} {r : EncRegs} (h : g.agrees r) (ws : List PortWord) :
    (encGhostRun r g ws).agrees (encRun r ws).regs ∧
    (encGhostRun r g ws).ipos + (encRun r ws).rest.length = g.ipos + ws.length ∧
    (encGhostRun r g ws).opos = g.opos + (encRun r ws).out.length := by
  induction ws generalizing g r with
  | nil => exact ⟨h, rfl, rfl⟩
  | cons w ws ih =>
    cases herr : r.err with
    | true => simp [encGhostRun, encRun_fault herr, herr, h]
    | false =>
      obtain ⟨hagrees, hin, hout⟩ := ih (agrees_consume h w)
      obtain ⟨hipos, hopos⟩ := consume_positions g w r
      have hghost : encGhostRun r g (w :: ws)
          = encGhostRun (encOp (decodeEncIn w) r).1 (g.consume w r) ws := by simp [encGhostRun, herr]
      rw [hghost, encRun_cons herr]
      refine ⟨hagrees, ?_, ?_⟩
      · rw [List.length_cons, hin, hipos]
        omega
      · rw [List.length_append, hout, hopos]
        omega

theorem agrees_reset : EncGhost.reset.agrees EncRegs.reset := ⟨rfl, fun _ => rfl, fun hne => absurd rfl hne⟩

/-- Settles O54: the ghosts agree with the registers at reset, and every symbol keeps them in agreement. -/
theorem countRegisterFollowsTheUnboundedCounter : Obligations.CountRegisterFollowsTheUnboundedCounter := by
  unfold Obligations.CountRegisterFollowsTheUnboundedCounter
  intro ws
  obtain ⟨hagrees, hin, hout⟩ := encGhostRun_follows agrees_reset ws
  refine ⟨hagrees, cnt_eq_zero_iff_of_agrees hagrees, hin.trans (Nat.zero_add _), hout.trans (Nat.zero_add _)⟩

/-! ### The HOST's account -/

/-- What the HOST holds after what it sees: the words received since the last marker, fault or reset (R124, R240). -/
def receivedFrom (received : List PortWord) : List Seen → List PortWord
  | [] => received
  | .void :: es => receivedFrom [] es
  | .word w :: es => if symEof w then receivedFrom [] es else receivedFrom (received ++ [w]) es

/-- The account goes on from what the HOST holds. -/
theorem commitFrom_append (r : List PortWord) (es fs : List Seen) :
    commitFrom r (es ++ fs) = commitFrom r es ++ commitFrom (receivedFrom r es) fs := by
  induction es generalizing r with
  | nil => rfl
  | cons x es ih =>
    cases x with
    | void => exact ih []
    | word w =>
      cases h : symEof w
      · simp [commitFrom_byte h, receivedFrom, h, ih]
      · simp [commitFrom_marker h, receivedFrom, h, ih]

/-- Bytes are received and commit nothing. -/
theorem commitFrom_dataWords (r : List PortWord) (bs : List Byte) :
    commitFrom r ((dataWords bs).map .word) = [] ∧
    receivedFrom r ((dataWords bs).map .word) = r ++ dataWords bs := by
  induction bs generalizing r with
  | nil => exact ⟨rfl, (List.append_nil r).symm⟩
  | cons b bs ih =>
    obtain ⟨hcommit, hreceived⟩ := ih (r ++ [dataWord b])
    rw [dataWords_cons, List.map_cons, commitFrom_byte (symEof_dataWord b), receivedFrom, symEof_dataWord b,
      if_neg Bool.false_ne_true]
    exact ⟨hcommit, hreceived.trans (List.append_assoc ..)⟩

/-- A frame, once its marker has come, is committed whole. -/
theorem committed_frameWords (bs : List Byte) : committed ((frameWords bs).map .word) = frameWords bs := by
  have hmarker : symEof PortSymbol.eof.bits = true := symEof_eofWord 0
  obtain ⟨hcommit, hreceived⟩ := commitFrom_dataWords [] bs
  rw [committed, frameWords, List.map_append, commitFrom_append, hcommit, hreceived, List.map_singleton,
    commitFrom_marker hmarker]
  rfl

/-- Whole frames in a row, each of which is `good`. -/
def Frames (good : List Byte → Prop) (ws : List PortWord) : Prop :=
  ∃ fs : List (List Byte), ws = fs.flatMap frameWords ∧ ∀ bs ∈ fs, good bs

theorem frames_nil (good : List Byte → Prop) : Frames good [] := ⟨[], rfl, by simp⟩

theorem frames_single {good : List Byte → Prop} {bs : List Byte} (h : good bs) : Frames good (frameWords bs) :=
  ⟨[bs], by simp, by simpa using h⟩

theorem frames_append {good : List Byte → Prop} {us vs : List PortWord} (hu : Frames good us) (hv : Frames good vs) :
    Frames good (us ++ vs) := by
  obtain ⟨fs, rfl, hfs⟩ := hu
  obtain ⟨gs, rfl, hgs⟩ := hv
  exact ⟨fs ++ gs, List.flatMap_append.symm, List.forall_mem_append.2 ⟨hfs, hgs⟩⟩

theorem frames_imp {good good' : List Byte → Prop} (himp : ∀ bs, good bs → good' bs) {ws : List PortWord}
    (h : Frames good ws) : Frames good' ws := by
  obtain ⟨fs, hws, hfs⟩ := h
  exact ⟨fs, hws, fun bs hbs => himp bs (hfs bs hbs)⟩

/-- An induction for the account of a block over a run: where each edge commits good frames and keeps `P` between what
the HOST holds and the state, the run commits good frames. -/
theorem frames_commitFrom_seenOver {seenAt : Edge → State → List Seen} {good : List Byte → Prop}
    {P : List PortWord → State → Prop}
    (hstep : ∀ {r : List PortWord} {s t : State} {e : Edge} {es : List Edge}, s.schedule = e :: es →
      step s = .next t → P r s → Frames good (commitFrom r (seenAt e s)) ∧ P (receivedFrom r (seenAt e s)) t)
    (n : Nat) {r : List PortWord} {s : State} (h : P r s) : Frames good (commitFrom r (seenOver seenAt n s)) := by
  induction n generalizing r s with
  | zero => exact frames_nil good
  | succ n ih =>
    cases hs : s.schedule with
    | nil => rw [seenOver_nil hs]; exact frames_nil good
    | cons e es =>
      cases ht : step s with
      | next t =>
        obtain ⟨hcommit, hP⟩ := hstep hs ht h
        rw [seenOver_succ hs ht, commitFrom_append]
        exact frames_append hcommit (ih hP)
      | fault r => cases r
      | refused r => rw [seenOver_refused ht]; exact frames_nil good

/-- What the HOST has received since the last marker and what the block has pending are together the bytes of a frame
in progress, or a whole frame whose marker is still pending. -/
def Accounted (opened closed : List Byte → Prop) (r pend : List PortWord) : Prop :=
  (∃ bs, opened bs ∧ r ++ pend = dataWords bs) ∨ (∃ bs, closed bs ∧ pend ≠ [] ∧ r ++ pend = frameWords bs)

/-- With nothing pending the frame is in progress. -/
theorem accounted_nil {opened closed : List Byte → Prop} {r : List PortWord} (h : Accounted opened closed r []) :
    ∃ bs, opened bs ∧ r = dataWords bs := by
  obtain ⟨bs, hopen, hbytes⟩ | ⟨-, -, hne, -⟩ := h
  · exact ⟨bs, hopen, by simpa using hbytes⟩
  · exact absurd rfl hne

/-- A word delivered is a byte of the frame, or its marker, which commits the frame and leaves the next one in
progress. -/
theorem accounted_deliver {opened closed : List Byte → Prop} (hnext : ∀ bs, closed bs → opened [])
    {r us : List PortWord} {w : PortWord} (h : Accounted opened closed r (w :: us)) :
    Frames closed (commitFrom r [.word w]) ∧ Accounted opened closed (receivedFrom r [.word w]) us := by
  have hbyte {bs : List Byte} (hw : w ∈ dataWords bs) :
      commitFrom r [.word w] = [] ∧ receivedFrom r [.word w] = r ++ [w] := by
    obtain ⟨b, -, rfl⟩ := List.mem_map.1 hw
    exact commitFrom_dataWords r [b]
  obtain ⟨bs, hopen, hbytes⟩ | ⟨bs, hclosed, -, hframe⟩ := h
  · obtain ⟨hcommit, hreceived⟩ := hbyte (bs := bs) (hbytes ▸ by simp)
    rw [hcommit, hreceived]
    exact ⟨frames_nil _, .inl ⟨bs, hopen, by simpa using hbytes⟩⟩
  · obtain rfl | ⟨vs, v, rfl⟩ := List.eq_nil_or_concat us
    · obtain ⟨hr, hw⟩ := List.append_inj' hframe rfl
      have hmarker : symEof w = true := by
        rw [List.singleton_inj.1 hw]
        exact symEof_eofWord 0
      rw [commitFrom_marker hmarker, receivedFrom, if_pos hmarker, commitFrom_nil, hframe]
      exact ⟨frames_single hclosed, .inl ⟨[], hnext bs hclosed, rfl⟩⟩
    · have hsplit : (r ++ w :: vs) ++ [v] = dataWords bs ++ [PortSymbol.eof.bits] := by
        simpa [frameWords] using hframe
      obtain ⟨hbytes, -⟩ := List.append_inj' hsplit rfl
      obtain ⟨hcommit, hreceived⟩ := hbyte (bs := bs) (hbytes ▸ by simp)
      rw [hcommit, hreceived]
      exact ⟨frames_nil _, .inr ⟨bs, hclosed, by simp, by simpa using hframe⟩⟩

/-! ### What ENC commits -/

theorem dataWords_append (as bs : List Byte) : dataWords (as ++ bs) = dataWords as ++ dataWords bs := List.map_append

/-- Bytes as an output port carries them (R80). -/
theorem map_bits_data (bs : List Byte) : (bs.map PortSymbol.data).map PortSymbol.bits = dataWords bs := List.map_map

/-- A pixel operation emits bytes only. -/
theorem encPixel_emits_bytes (p : Polarity) (r : EncRegs) : ∃ bs : List Byte, (encPixel p r).2 = bs.map .data := by
  unfold encPixel
  split <;> [split; skip]
  · exact ⟨[], rfl⟩
  · exact ⟨contPair, rfl⟩
  · exact ⟨[r.cnt], rfl⟩

/-- Of a frame in progress on ENC the pixels `ps` are consumed, with `rest` still to come of the input `all`, and for
them the bytes `bs` have been emitted. -/
def EncOpened (all : List PortWord) (regs : EncRegs) (rest : List PortWord) (bs : List Byte) : Prop :=
  ∃ ps : List Byte, validPixels ps = true ∧ dataWords ps ++ rest <:+ all ∧
    encRun EncRegs.reset (dataWords ps) = { regs := regs, out := bs.map .data, rest := [] }

/-- ENC has consumed a valid frame whole, with `rest` still to come of the input `all`, and `bs` is its encoding. -/
def EncClosed (all : List PortWord) (regs : EncRegs) (rest : List PortWord) (bs : List Byte) : Prop :=
  regs = EncRegs.reset ∧ ∃ (ps : List Byte) (d : Byte), validPixels ps = true ∧ encodeFrame ps = .bytes bs ∧
    dataWords ps ++ [eofWord d] ++ rest <:+ all

/-- `bs` is the encoding of a valid frame that stands whole in the input `all`. -/
def EncodedIn (all : List PortWord) (bs : List Byte) : Prop :=
  ∃ (ps : List Byte) (d : Byte), validPixels ps = true ∧ encodeFrame ps = .bytes bs ∧
    dataWords ps ++ [eofWord d] <:+: all

/-- At the start of a frame. -/
theorem encOpened_start {all rest : List PortWord} (h : rest <:+ all) : EncOpened all EncRegs.reset rest [] :=
  ⟨[], rfl, h, rfl⟩

theorem encodedIn_of_encClosed {all rest : List PortWord} {regs : EncRegs} {bs : List Byte}
    (h : EncClosed all regs rest bs) : EncodedIn all bs := by
  obtain ⟨-, ps, d, hv, hencode, front, hall⟩ := h
  exact ⟨ps, d, hv, hencode, front, rest, (List.append_assoc ..).trans hall⟩

theorem encOpened_of_encClosed {all rest : List PortWord} {regs : EncRegs} {bs : List Byte}
    (h : EncClosed all regs rest bs) : EncOpened all regs rest [] := by
  obtain ⟨rfl, ps, d, -, -, hsuffix⟩ := h
  exact encOpened_start ((List.suffix_append _ rest).trans hsuffix)

/-- One pixel more. -/
theorem encOpened_pixel {all rest : List PortWord} {regs : EncRegs} {bs : List Byte} {p : Polarity}
    (herr : regs.err = false) (h : EncOpened all regs (dataWord p.level :: rest) bs) :
    ∃ cs : List Byte, (encPixel p regs).2 = cs.map .data ∧ EncOpened all (encPixel p regs).1 rest (bs ++ cs) := by
  obtain ⟨ps, hv, hsuffix, hrun⟩ := h
  obtain ⟨cs, hcs⟩ := encPixel_emits_bytes p regs
  have hv' : validPixels (ps ++ [p.level]) = true := by
    have hp : validPixel p.level = true := validPixel_iff.2 ⟨p, rfl⟩
    rw [validPixels, List.all_append, Bool.and_eq_true]
    exact ⟨hv, by simpa using hp⟩
  have hrun' := encRun_concat hrun herr (dataWord p.level)
  rw [encOp_level, hcs, ← List.map_append] at hrun'
  refine ⟨cs, hcs, ps ++ [p.level], hv', ?_, ?_⟩
  · rw [dataWords_append, List.append_assoc]
    exact hsuffix
  · rw [dataWords_append]
    exact hrun'

/-- The marker: what is emitted for it completes the encoding (R116). -/
theorem encClosed_marker {all rest : List PortWord} {regs : EncRegs} {bs : List Byte} {d : Byte}
    (herr : regs.err = false) (h : EncOpened all regs (eofWord d :: rest) bs) :
    ∃ cs : List Byte, EncClosed all (encEndFrame regs).1 rest cs ∧
      dataWords bs ++ (encEndFrame regs).2.map PortSymbol.bits = frameWords cs := by
  obtain ⟨ps, hv, hsuffix, hrun⟩ := h
  obtain ⟨cs, hencode, hframe⟩ := encoderEmitsTheEncodingOfAValidFrame ps d hv
  have hout : bs.map .data ++ (encEndFrame regs).2 = cs.map .data ++ [.eof] := by
    have hrun' := encRun_concat hrun herr (eofWord d)
    rw [hframe, encOp_eof] at hrun'
    exact (congrArg EncRun.out hrun').symm
  refine ⟨cs, ⟨encEndFrame_regs herr, ps, d, hv, hencode, by simpa using hsuffix⟩, ?_⟩
  rw [← map_bits_data, ← List.map_append, hout, List.map_append, map_bits_data]
  rfl

/-- The HOST's account of ENC: what stands in `enc_in` is the end of the input `all`, and ENC is in the fault state or
what the HOST has received and what is pending are of one frame. -/
def EncAccounted (all r : List PortWord) (s : State) : Prop :=
  s.encIn <:+ all ∧ (s.enc.err = true ∨
    Accounted (EncOpened all s.enc s.encIn) (EncClosed all s.enc s.encIn) r (s.encPend.map PortSymbol.bits))

/-- An input beat of ENC keeps the account: a pixel's bytes go on with the frame in progress, the marker closes it, and
an invalid pixel is the fault. -/
theorem encAccounted_input {all r : List PortWord} {s t : State} {w : PortWord} (ha : EncAccounted all r s)
    (hpend : s.encPend = []) (herr : s.enc.err = false) (hin : s.encIn = w :: t.encIn)
    (henc : t.enc = (encOp (decodeEncIn w) s.enc).1) (hpend' : t.encPend = (encOp (decodeEncIn w) s.enc).2) :
    EncAccounted all r t := by
  obtain ⟨hsuffix, hfault | hacc⟩ := ha
  · simp [herr] at hfault
  rw [hpend] at hacc
  obtain ⟨bs, hopen, rfl⟩ := accounted_nil hacc
  rw [hin] at hsuffix hopen
  refine ⟨(List.suffix_cons w _).trans hsuffix, ?_⟩
  rw [henc, hpend']
  obtain ⟨p, rfl⟩ | ⟨b, hdark, hlight, rfl⟩ | ⟨d, rfl⟩ := encInWord_cases w
  · obtain ⟨cs, hcs, hopen'⟩ := encOpened_pixel herr hopen
    rw [encOp_level]
    refine .inr (.inl ⟨_, hopen', ?_⟩)
    rw [hcs, map_bits_data, dataWords_append]
  · rw [encOp_invalidPixel hdark hlight]
    exact .inl rfl
  · obtain ⟨cs, hclosed, hframe⟩ := encClosed_marker herr hopen
    rw [encOp_eof]
    exact .inr (.inr ⟨cs, hclosed, by simp [encEndFrame], hframe⟩)

/-- Every edge keeps the account of ENC, and commits encodings of frames offered whole. -/
theorem encAccounted_step {all r : List PortWord} {s t : State} {e : Edge} {es : List Edge}
    (hs : s.schedule = e :: es) (h : step s = .next t) (ha : EncAccounted all r s) :
    Frames (EncodedIn all) (commitFrom r (encSeenAt e s)) ∧ EncAccounted all (receivedFrom r (encSeenAt e s)) t := by
  have ⟨hsuffix, hacc⟩ := ha
  have hstuck (henc : t.enc = s.enc) (hin : t.encIn = s.encIn) (hfault : s.enc.err = true) :
      Frames (EncodedIn all) (commitFrom r (encSeenAt e s)) ∧
      EncAccounted all (receivedFrom r (encSeenAt e s)) t := by
    rw [encSeenAt_fault e hfault]
    exact ⟨frames_nil _, hin ▸ hsuffix, .inl (henc ▸ hfault)⟩
  obtain ⟨-, -, hcase⟩ := cases_nextEdge hs (step_enc_cases h)
  obtain ⟨hreset, henc, hpend, hin, -⟩ | ⟨hr, hpend, herr, w, hin, henc, hpend', -⟩ |
    ⟨hr, haccept, y, hpend, henc, hin, -⟩ | ⟨hr, henc, hpend, hin, -, -, hwait⟩ := hcase
  case inl =>
    rw [encSeenAt_reset hreset]
    refine ⟨frames_nil _, hin ▸ hsuffix, .inr (.inl ⟨[], ?_, by rw [hpend]; rfl⟩)⟩
    rw [henc, hin]
    exact encOpened_start hsuffix
  case inr.inl =>
    rw [encSeenAt_idle hr herr hpend]
    exact ⟨frames_nil _, encAccounted_input ha hpend herr hin henc hpend'⟩
  case inr.inr.inl =>
    by_cases hfault : s.enc.err = true
    · exact hstuck henc hin hfault
    have herr : s.enc.err = false := Bool.eq_false_iff.2 hfault
    have hacc := hacc.resolve_left hfault
    rw [hpend] at hacc
    rw [encSeenAt_cons hr herr hpend, if_pos haccept]
    obtain ⟨hcommit, hacc'⟩ := accounted_deliver (fun _ => encOpened_of_encClosed) hacc
    refine ⟨frames_imp (fun _ => encodedIn_of_encClosed) hcommit, hin ▸ hsuffix, .inr ?_⟩
    rw [henc, hin]
    exact hacc'
  case inr.inr.inr =>
    by_cases hfault : s.enc.err = true
    · exact hstuck henc hin hfault
    have herr : s.enc.err = false := Bool.eq_false_iff.2 hfault
    have hseen : encSeenAt e s = [] := by
      cases hp : s.encPend with
      | nil => exact encSeenAt_idle hr herr hp
      | cons y ys => rw [encSeenAt_cons hr herr hp, hwait (by simp [hp]), if_neg Bool.false_ne_true]
    rw [hseen]
    refine ⟨frames_nil _, hin ▸ hsuffix, ?_⟩
    rw [henc, hin, hpend]
    exact hacc

/-! ### What DEC commits -/

/-- Of a frame in progress on DEC the bytes `bs` are consumed, with `rest` still to come of the input `all`, and they
decode to the pixels `ps`. -/
def DecOpened (all : List PortWord) (pol : Polarity) (rest : List PortWord) (ps : List Byte) : Prop :=
  ∃ bs : List Byte, decodeFrame bs = ps ∧ pol = Polarity.atPosition bs.length ∧ dataWords bs ++ rest <:+ all

/-- DEC has consumed a frame whole, with `rest` still to come of the input `all`, and it decodes to `ps`. -/
def DecClosed (all : List PortWord) (pol : Polarity) (rest : List PortWord) (ps : List Byte) : Prop :=
  pol = .dark ∧ ∃ (bs : List Byte) (d : Byte), decodeFrame bs = ps ∧ dataWords bs ++ [eofWord d] ++ rest <:+ all

/-- `ps` is the decoding of a frame that stands whole in the input `all`. -/
def DecodedIn (all : List PortWord) (ps : List Byte) : Prop :=
  ∃ (bs : List Byte) (d : Byte), decodeFrame bs = ps ∧ dataWords bs ++ [eofWord d] <:+: all

theorem decOpened_start {all rest : List PortWord} (h : rest <:+ all) : DecOpened all .dark rest [] :=
  ⟨[], rfl, rfl, h⟩

theorem decodedIn_of_decClosed {all rest : List PortWord} {pol : Polarity} {ps : List Byte}
    (h : DecClosed all pol rest ps) : DecodedIn all ps := by
  obtain ⟨-, bs, d, hdecode, front, hall⟩ := h
  exact ⟨bs, d, hdecode, front, rest, (List.append_assoc ..).trans hall⟩

theorem decOpened_of_decClosed {all rest : List PortWord} {pol : Polarity} {ps : List Byte}
    (h : DecClosed all pol rest ps) : DecOpened all pol rest [] := by
  obtain ⟨rfl, bs, d, -, hsuffix⟩ := h
  exact decOpened_start ((List.suffix_append _ rest).trans hsuffix)

/-- The HOST's account of DEC, where it feeds DEC itself: what stands in `dec_in` is the end of the input `all`, and
what the HOST has received and what is pending are of one frame. -/
def DecAccounted (all r : List PortWord) (s : State) : Prop :=
  s.linked = false ∧ s.decIn <:+ all ∧
    Accounted (DecOpened all s.decPol s.decIn) (DecClosed all s.decPol s.decIn) r (s.decPending.map PortSymbol.bits)

/-- The symbol DEC delivers next is the first of those it has to deliver. -/
theorem decNext_eq_head? (s : State) : s.decNext = s.decPending.head? := by
  have hzero : s.decRem = 0 ↔ s.decRem.toNat = 0 := BitVec.toNat_eq
  unfold State.decNext State.decPending
  by_cases hrem : s.decRem = 0
  · cases heof : s.decPendEof <;> simp [hrem]
  · obtain ⟨k, hk⟩ := Nat.exists_eq_succ_of_ne_zero (mt hzero.2 hrem)
    rw [if_pos hrem, hk, List.replicate_succ]
    rfl

/-- A byte consumed goes on with the frame in progress, and the marker closes it; what is then pending is the Level O
output. -/
theorem accounted_decOp {all rest : List PortWord} {pol : Polarity} {ps : List Byte} {w : PortWord}
    (h : DecOpened all pol (w :: rest) ps) :
    Accounted (DecOpened all (decOp (decodeDecIn w) pol).1 rest) (DecClosed all (decOp (decodeDecIn w) pol).1 rest)
      (dataWords ps) ((decOp (decodeDecIn w) pol).2.map PortSymbol.bits) := by
  obtain ⟨bs, rfl, rfl, hsuffix⟩ := h
  obtain ⟨n, rfl⟩ | ⟨d, rfl⟩ := word_cases w
  · rw [decodeDecIn_dataWord]
    refine .inl ⟨decodeFrame (bs ++ [n]), ⟨bs ++ [n], rfl, ?_, ?_⟩, ?_⟩
    · rw [List.length_append, List.length_singleton, Polarity.atPosition_succ]
      rfl
    · rw [dataWords_append, List.append_assoc]
      exact hsuffix
    · have hdecode : decodeFrame (bs ++ [n])
          = decodeFrame bs ++ List.replicate n.toNat (Polarity.atPosition bs.length).level := by
        have happend := decodeFrom_append 0 bs [n]
        rwa [Nat.zero_add, decodeFrom_cons, decodeFrom_nil, List.append_nil] at happend
      rw [hdecode, dataWords_append, ← map_bits_data (List.replicate _ _), List.map_replicate]
      rfl
  · rw [decodeDecIn_eofWord]
    exact .inr ⟨decodeFrame bs, ⟨rfl, bs, d, rfl, by simpa using hsuffix⟩, List.cons_ne_nil _ _, rfl⟩

/-- Every edge keeps the account of DEC, and commits decodings of frames offered whole. -/
theorem decAccounted_step {all r : List PortWord} {s t : State} {e : Edge} {es : List Edge}
    (hs : s.schedule = e :: es) (h : step s = .next t) (ha : DecAccounted all r s) :
    Frames (DecodedIn all) (commitFrom r (decSeenAt e s)) ∧ DecAccounted all (receivedFrom r (decSeenAt e s)) t := by
  obtain ⟨hl, hsuffix, hacc⟩ := ha
  have hl' : t.linked = false := (step_linked h).trans hl
  obtain ⟨hreset, hpol, -, hrem, heof, hin, -⟩ | ⟨hr, hready, w, hoffer, hpol, hrunPol, hrem, heof, hin, -⟩ |
    ⟨hr, hready, haccept, hpol, hrunPol, hrem, heof, hin, -⟩ | ⟨hr, hpol, hrunPol, hrem, heof, hin, -, -, hwait⟩ :=
      cases_nextEdge hs (step_dec_cases h)
  case inl =>
    have hpending : t.decPending = [] := (decPending_eq_nil t).2 ((decReady_iff t).2 ⟨hrem, heof⟩)
    rw [decSeenAt_reset hreset]
    refine ⟨frames_nil _, hl', hin ▸ hsuffix, .inl ⟨[], ?_, by rw [hpending]; rfl⟩⟩
    rw [hpol, hin]
    exact decOpened_start hsuffix
  case inr.inl =>
    have hpending : t.decPending = (decOp (decodeDecIn w) s.decPol).2 :=
      (decPending_congr hrunPol hrem heof).trans (decPending_decLoad hready w)
    obtain ⟨-, ws, hws⟩ := decOffer_own hl hoffer
    have hin' : t.decIn = ws := by simp [hin, hl, hws]
    rw [(decPending_eq_nil s).2 hready, hws] at hacc
    obtain ⟨ps, hopen, rfl⟩ := accounted_nil hacc
    rw [decSeenAt_next hr, if_neg (by simp [hready])]
    refine ⟨frames_nil _, hl', ?_, ?_⟩
    · rw [hin']
      exact (List.suffix_cons w ws).trans (hws ▸ hsuffix)
    · rw [hpol, decPol_decLoad, hin', hpending]
      exact accounted_decOp hopen
  case inr.inr.inl =>
    obtain ⟨y, hpending, -⟩ := decPending_decDeliver hready
    have hpending' : t.decPending = s.decDeliver.decPending :=
      decPending_congr (hrunPol.trans (decDeliver_decRunPol s).symm) hrem heof
    rw [hpending] at hacc
    rw [decSeenAt_next hr, if_pos ⟨hready, haccept⟩, decNext_eq_head?, hpending]
    obtain ⟨hcommit, hacc'⟩ := accounted_deliver (fun _ => decOpened_of_decClosed) hacc
    refine ⟨frames_imp (fun _ => decodedIn_of_decClosed) hcommit, hl', hin ▸ hsuffix, ?_⟩
    rw [hpol, hin, hpending']
    exact hacc'
  case inr.inr.inr =>
    rw [decSeenAt_next hr, if_neg fun ⟨hbusy, haccept⟩ => by simp [hwait hbusy] at haccept]
    refine ⟨frames_nil _, hl', hin ▸ hsuffix, ?_⟩
    rw [hpol, hin, decPending_congr hrunPol hrem heof]
    exact hacc

/-- Before the marker ENC emits bytes only, whether the pixels are valid or not. -/
theorem encRun_dataWords_emits_bytes (r : EncRegs) (ps : List Byte) :
    ∃ bs : List Byte, (encRun r (dataWords ps)).out = bs.map .data := by
  induction ps generalizing r with
  | nil => exact ⟨[], rfl⟩
  | cons p ps ih =>
    rw [dataWords_cons]
    cases herr : r.err with
    | true => exact ⟨[], by rw [encRun_fault herr]; rfl⟩
    | false =>
      have hop : ∃ bs : List Byte, (encOp (decodeEncIn (dataWord p)) r).2 = bs.map .data := by
        obtain ⟨q, hq⟩ | ⟨b, hdark, hlight, hb⟩ | ⟨d, hd⟩ := encInWord_cases (dataWord p)
        · rw [hq, encOp_level]
          exact encPixel_emits_bytes q r
        · rw [hb, encOp_invalidPixel hdark hlight]
          exact ⟨[], rfl⟩
        · exact absurd hd (dataWord_ne_eofWord p d)
      obtain ⟨bs, hbs⟩ := hop
      obtain ⟨cs, hcs⟩ := ih (encOp (decodeEncIn (dataWord p)) r).1
      refine ⟨bs ++ cs, ?_⟩
      rw [encRun_cons herr, hbs, hcs, List.map_append]

/-- Settles O55. The first three clauses are the account on bytes, on a whole frame and on what is void; the last two
hold because every edge keeps the HOST's account of a block. -/
theorem onlyTheMarkerCommitsAFrame : Obligations.OnlyTheMarkerCommitsAFrame := by
  unfold Obligations.OnlyTheMarkerCommitsAFrame
  refine ⟨fun ps => ?bytes, fun bs cs => ?marker, fun es fs bs => ?void, fun n s henc hpend => ?enc,
    fun n s hpol hrem heof hl => ?dec⟩
  case bytes =>
    obtain ⟨bs, hbs⟩ := encRun_dataWords_emits_bytes EncRegs.reset ps
    have hwords : (bs.map PortSymbol.data).map (fun y => Seen.word y.bits) = (dataWords bs).map .word := by
      simp [dataWords, bits_data]
    rw [hbs, hwords]
    exact (commitFrom_dataWords [] bs).1
  case marker =>
    have hframe := committed_frameWords bs
    rw [committed] at hframe ⊢
    rw [List.map_append, commitFrom_append, (commitFrom_dataWords _ cs).1, List.append_nil, hframe]
  case void =>
    rw [committed, commitFrom_append_void, commitFrom_append, (commitFrom_dataWords _ bs).1, List.append_nil]
    rfl
  case enc =>
    refine frames_commitFrom_seenOver (P := EncAccounted s.encIn) encAccounted_step n ⟨List.suffix_rfl, .inr ?_⟩
    rw [henc, hpend]
    exact .inl ⟨[], encOpened_start List.suffix_rfl, rfl⟩
  case dec =>
    refine frames_commitFrom_seenOver (P := DecAccounted s.decIn) decAccounted_step n ⟨hl, List.suffix_rfl, ?_⟩
    rw [hpol, (decPending_eq_nil s).2 ((decReady_iff s).2 ⟨hrem, heof⟩)]
    exact .inl ⟨[], decOpened_start List.suffix_rfl, rfl⟩

end Sys2Proof.Machine
end
